-- ==== Sys2Proof/Word.lean ====
section
/-!
DEFINITION. The word types of the block: bytes, the 24-bit address, the 36-bit command word and the
29-bit response word (00_scope.md R11, 30_encoding.md R88, R91).
-/

namespace Sys2Proof

/-- 00_scope.md R11: a byte is 8 bits, unsigned. -/
abbrev Byte := BitVec 8

/-- 30_encoding.md R83, R88: a 24-bit offset or address. -/
abbrev Offset := BitVec 24

/-- 30_encoding.md R88: the command word `CW`. -/
abbrev CommandWord := BitVec 36

/-- 30_encoding.md R91: the packed response `RSP`. -/
abbrev ResponseWord := BitVec 29

end Sys2Proof
end

