-- ==== Sys2Proof/Config.lean ====
section
/-!
DEFINITION. The constants the spec fixes (00_scope.md R8) and the transport's fixed parameters
(45_host_environment.md R206). None is configurable.
-/

namespace Sys2Proof

/-- R8 `CMD_OPCODE`: byte 0 of every packet. -/
abbrev Config.cmdOpcode : Byte := 0x5A#8

/-- R8 `CHUNK`: payload bytes per packet and alignment of a packet's offset. -/
abbrev Config.chunk : Nat := 256

/-- R8 `ADDR_BYTES`. -/
abbrev Config.addrBytes : Nat := 3

/-- R8 `PKT_LEN`: 1 + 3 + 256 + 1. -/
abbrev Config.pktLen : Nat := 261

/-- R8 `SUM_FIRST`: the first packet byte the checksum covers. -/
abbrev Config.sumFirst : Nat := 1

/-- R8 `SUM_LAST`: the last packet byte the checksum covers. -/
abbrev Config.sumLast : Nat := 259

/-- R8 `ROM_MAX`: the largest ROM image in bytes. -/
abbrev Config.romMax : Nat := 1048576

/-- R8 `OFFSET_MAX`: the largest offset ENC accepts, inclusive. -/
abbrev Config.offsetMax : Nat := 1048576

/-- R8 `LUT_DEPTH`. -/
abbrev Config.lutDepth : Nat := 256

/-- R8 `LUT_WIDTH`. -/
abbrev Config.lutWidth : Nat := 8

/-- R8 `SUM_MODULUS`. -/
abbrev Config.sumModulus : Nat := 256

/-- R206: the line rate in baud; no rule of the model depends on it (R285). -/
abbrev Config.baud : Nat := 256000

/-- R206: 8-N-1, the data bits, parity bits and stop bits of a line byte. -/
abbrev Config.lineFormat : Nat × Nat × Nat := (8, 0, 1)

/-- R206, R219: read and write timeout, in seconds. -/
abbrev Config.timeoutSeconds : Nat := 30

/-- R206: the least size of the transport's read buffer in bytes. -/
abbrev Config.readBufferMin : Nat := 1024

/-- R206, R253: the least size of the transport's write buffer in bytes. -/
abbrev Config.writeBufferMin : Nat := 512

/-- R212: the recommended `RETRY_LIMIT`; a recommendation only (92_eei_decisions.md D22). -/
abbrev Config.recommendedRetries : Nat := 3

end Sys2Proof
end

