-- ==== Sys2Proof/Syntax.lean ====
section
/-!
DEFINITION. The instructions: one constructor per row of spec/opcode_table.json, and the two kinds of
code an instruction is written in (30_encoding.md R80).
-/

namespace Sys2Proof

/-- The operations of the block (30_encoding.md R90, R96) and the wire packet it emits (R81). All operand
fields are unsigned (R88). -/
inductive Instr where
  /-- `ENC offset` (40_address_encoder.md R110). -/
  | enc (offset : Offset)
  /-- `REV b` (41_bit_reversal.md R130). -/
  | rev (b : Byte)
  /-- `SUM offset, count`, over the packet buffer (42_checksum.md R150, R157). -/
  | sum (offset : Offset) (count : BitVec 9)
  /-- `PKT offset, rev` (43_packet_formatter.md R170). -/
  | pkt (offset : Offset) (rev : Bool)
  /-- `PACKET_5A`: the 261-byte packet on the serial line, its address, its 256 payload bytes in order and
  its checksum byte (30_encoding.md R81). -/
  | packet5A (addr : Offset) (payload : List Byte) (checksum : Byte)
  deriving DecidableEq, Repr

/-- 30_encoding.md R80: the two kinds of encoding, the 36-bit command word and the packet, a sequence of
bytes with byte 0 first. -/
inductive Code where
  | word (w : CommandWord)
  | frame (bytes : List Byte)
  deriving DecidableEq, Repr

end Sys2Proof
end

