-- ==== Sys2Proof/Machine/State.lean ====
section
/-!
DEFINITION. The state of the block, its session parameters, its ports and its host, as plain data; the
reasons a step can stop; the state right after reset (10_state.md R20 to R36, 70_reset_and_hazards.md R271).
-/

namespace Sys2Proof.Machine

/-- Bytes by address, addresses strictly rising, no entry equal to what an unlisted address reads as
(`Memory.wf`). -/
abbrev Memory := List Host.Cell

/-- A finite byte sequence seen as memory: addresses 0 to `len - 1` (20_memory.md R50). -/
structure Image where
  len : Nat
  mem : Memory
  deriving DecidableEq, Repr

/-- 20_memory.md R50: the three address spaces. -/
inductive Space where
  | romimg
  | lut
  | pkt
  deriving DecidableEq, Repr

/-- A failing constraint, one constructor per row of the table of 30_encoding.md R93, and the two kinds that
name no constraint. -/
inductive Failure where
  /-- ENC, `0 ≤ offset`. -/
  | encBelowZero
  /-- ENC, `offset ≤ 1_048_576`. -/
  | encAboveMax
  /-- SUM, `offset ≥ 0`. -/
  | sumOffsetNegative
  /-- SUM, `count > 0`. -/
  | sumCountNotPositive
  /-- SUM, `offset + count ≤ len(buffer)`. -/
  | sumPastEnd
  /-- PKT, `offset` is a multiple of 256. -/
  | pktMisaligned
  /-- PKT, `offset + 256 ≤ len(rom)`. -/
  | pktPastEnd
  /-- PKT, `0 ≤ offset`. -/
  | pktOffsetNegative
  /-- Port-level SUM while PKTV = 0. -/
  | noPacket
  /-- A command word that matches no row of R90. -/
  | illegalCommand
  deriving DecidableEq, Repr

/-- 30_encoding.md R91: what a command answers. An error carries no result (60_exceptions.md R248), and no
unlisted status or constraint exists (93_implementation_defined.md U14). -/
inductive Response where
  | ok (result : Offset)
  | error (f : Failure)
  deriving DecidableEq, Repr

/-- 45_host_environment.md R201: why LOAD rejects a file. -/
inductive LoadError where
  | tooLarge
  | misalignedImage
  deriving DecidableEq, Repr

/-- 45_host_environment.md R221: the classes of error. -/
inductive ErrorClass where
  | validationError
  | argumentError
  | transportError
  | protocolError
  | cancelled
  deriving DecidableEq, Repr

/-- 45_host_environment.md R222: a FLASH ends in success or failure, nothing between. The human-readable reason has
no given text (91_not_in_source.md N37); that the model holds the class of the error for it is a DESIGN CHOICE
(log 23). -/
inductive SessionResult where
  | success
  | failure (c : ErrorClass)
  deriving DecidableEq, Repr

/-- 45_host_environment.md R208: the states of the transfer state machine. -/
inductive Phase where
  | idle
  | opening
  | sending (i : Nat)
  | awaitingAck (i : Nat)
  | retrying (i : Nat)
  | closing (r : SessionResult)
  | closed (r : SessionResult)
  deriving DecidableEq, Repr

/-- The host parameters the document leaves open (00_scope.md R10, 92_eei_decisions.md D22): arguments of
FLASH. `ackFrames` are the frames that are a valid acknowledgment, `nakFrames` the negative ones. -/
structure HostParams where
  retryLimit : Nat
  retryCountsFirst : Bool
  ackFrames : List (List Byte)
  nakFrames : List (List Byte)
  deriving DecidableEq, Repr

/-- What happens to a running FLASH (45_host_environment.md R209 to R213, R219, R220). -/
inductive HostEvent where
  /-- The transport was acquired. -/
  | opened
  /-- The transport could not be acquired. -/
  | openFailed
  /-- The write of the current packet completed. -/
  | written
  /-- A frame arrived from the device. -/
  | reply (frame : List Byte)
  /-- The 30-second bound of the current suspension point ran out. -/
  | timeout
  /-- An I/O failure outside protocol semantics. -/
  | ioError
  /-- The transport was released (DESIGN CHOICE: an event of its own, log 27). -/
  | released
  /-- The user asked to abort. -/
  | cancel
  deriving DecidableEq, Repr

/-- What the outside world does to the machine (the order is the environment's; log 1). -/
inductive Input where
  /-- A command word at the command port, or a packet at the serial line. -/
  | code (c : Code)
  /-- The reset input (70_reset_and_hazards.md R270). -/
  | reset
  /-- The host reads byte `k` of the packet buffer (43_packet_formatter.md R182). -/
  | readOut (k : Nat)
  /-- `LOAD bytes` (45_host_environment.md R200). -/
  | load (file : List Byte)
  /-- `FLASH rom, reverseBits` on the loaded ROM (45_host_environment.md R205). -/
  | flash (reverseBits : Bool) (params : HostParams)
  /-- An event of a running FLASH. -/
  | event (e : HostEvent)
  deriving DecidableEq, Repr

/-- The host's own state (45_host_environment.md R205, R208, R212, R213, R215; 10_state.md R30). -/
structure HostSide where
  /-- State of the transfer state machine, with the packet index. -/
  phase : Phase
  /-- Open parameters of the session. -/
  params : HostParams
  /-- The session's bit-reversal flag. -/
  reverseBits : Bool
  /-- The last PKT command the host issued is that of the packet in flight, so that it can resend by re-reading
  (R214, 70_reset_and_hazards.md R277). -/
  packetHeld : Bool
  /-- How often the current packet has been resent. -/
  resends : Nat
  /-- Progress reports made. What the callback's argument holds is not given (R215, 91_not_in_source.md N31); that
  the model counts the calls and holds no argument is a DESIGN CHOICE (log 22). -/
  progress : Nat
  /-- The transport is acquired. -/
  transportOpen : Bool
  /-- How often the transport has been released. -/
  releases : Nat
  /-- What the last LOAD failed with, none after a good one. -/
  loadError : Option LoadError
  /-- The byte the host last read out of the packet buffer. -/
  readData : Option Byte
  deriving DecidableEq, Repr

/-- The state of the machine. The first five fields are the writable elements of 10_state.md R20; `LUT` is
the constant `lutTable`. -/
structure State where
  /-- `PKT`, the packet buffer, addresses 0 to 260 (R22). -/
  pkt : Memory
  /-- `PKTV`, the packet-valid flag (R26). -/
  pktv : Bool
  /-- `ACC`, the checksum accumulator (R23). -/
  acc : Byte
  /-- `OFF`, the offset of the packet last built (R24). -/
  off : Offset
  /-- `REVEN`, the reversal enable of the packet last built (R25). -/
  reven : Bool
  /-- The response to the last command; none when no command was answered since reset (R271). -/
  rsp : Option Response
  /-- The session's ROM image (R28). -/
  rom : Image
  /-- Bytes sent over the serial line, oldest first (43_packet_formatter.md R182). -/
  line : List Byte
  /-- The host's state. -/
  host : HostSide
  /-- What the outside does next, in order (the model's own field; log 1). -/
  inputs : List Input
  deriving DecidableEq, Repr

/-- Why the machine stops with a fault. -/
inductive Fault where
  /-- Raised by the host's read-out alone, for an address outside PKT (20_memory.md R50); that it is a fault is a
  DESIGN CHOICE (log 24). Safe: no operation makes such an access (60_exceptions.md R243). -/
  | addressOutsideSpace (sp : Space) (addr : Nat)
  deriving DecidableEq, Repr

/-- Why a step has no meaning. -/
inductive Refusal where
  /-- Raised by exec for an instruction without a meaning; no arm does. Safe. -/
  | notModelled (mnemonic : String)
  /-- Raised by the read-out while PKTV = 0 (10_state.md R22). Safe. -/
  | packetUnreadable
  /-- Raised by PKT and FLASH when the ROM image breaks its premise (70_reset_and_hazards.md R275). Safe. -/
  | romPremise
  /-- Raised by a frame that is no 0x5A packet of 261 bytes (30_encoding.md R95). Safe. -/
  | undefinedPacket
  /-- Raised by LOAD or FLASH while a session runs (45_host_environment.md R225, 60_exceptions.md R254).
  Safe. -/
  | sessionActive
  /-- Raised by a packet that comes to the line from elsewhere while a session owns it (45_host_environment.md R218,
  R225, 20_memory.md R64). Safe. -/
  | transportOwned
  /-- Raised by FLASH with a `RETRY_LIMIT` that is not positive (92_eei_decisions.md D22). Safe. -/
  | retryLimitZero
  deriving DecidableEq, Repr

/-- The host before any session (log 6). -/
def HostSide.reset : HostSide where
  phase := .idle
  params := ⟨Config.recommendedRetries, false, [], []⟩
  reverseBits := false
  packetHeld := false
  resends := 0
  progress := 0
  transportOpen := false
  releases := 0
  loadError := none
  readData := none

/-- 70_reset_and_hazards.md R271: the machine right after reset, no session begun (logs 3, 5, 6). -/
def State.reset : State where
  pkt := []
  pktv := false
  acc := 0x00#8
  off := 0x000000#24
  reven := false
  rsp := none
  rom := ⟨0, []⟩
  line := []
  host := HostSide.reset
  inputs := []

/-- Replace the response. -/
def State.setRsp (s : State) (r : Option Response) : State := { s with rsp := r }

/-- Replace the packet buffer. -/
def State.setPkt (s : State) (m : Memory) : State := { s with pkt := m }

/-- Replace the packet-valid flag. -/
def State.setPktv (s : State) (b : Bool) : State := { s with pktv := b }

/-- Replace the accumulator. -/
def State.setAcc (s : State) (v : Byte) : State := { s with acc := v }

/-- Latch the offset and the reversal enable of a packet. -/
def State.setLatch (s : State) (offset : Offset) (rev : Bool) : State :=
  { s with off := offset, reven := rev }

/-- Replace the session's ROM image. -/
def State.setRom (s : State) (im : Image) : State := { s with rom := im }

/-- Replace the record of the line. -/
def State.setLine (s : State) (bytes : List Byte) : State := { s with line := bytes }

/-- Replace the host's state. -/
def State.setHost (s : State) (h : HostSide) : State := { s with host := h }

/-- Replace the pending inputs. -/
def State.setInputs (s : State) (l : List Input) : State := { s with inputs := l }

end Sys2Proof.Machine
end

