-- ==== Sys2Proof/Machine/Ops.lean ====
section
/-!
DEFINITION. The named operations over memory and state: byte reads and writes, byte sequences as memory, the
response of an operation, raising an error, and reset (00_scope.md R12, 20_memory.md R50 to R53,
60_exceptions.md R240, R246, 70_reset_and_hazards.md R270, R271).
-/

namespace Sys2Proof.Machine

/-- What an address that no entry lists reads as: a shorter spelling of a zero byte in an image or packet
(log 8). -/
abbrev Memory.blank : Byte := 0x00#8

/-- The canonical form: addresses strictly rising, no entry that reads as an unlisted address does. -/
abbrev Memory.wf (m : Memory) : Prop :=
  m.Pairwise (fun c d => c.1 < d.1) ∧ ∀ c ∈ m, c.2 ≠ Memory.blank

/-- Every listed address is below `n`. -/
abbrev Memory.below (m : Memory) (n : Nat) : Prop := ∀ c ∈ m, c.1 < n

/-- The byte at an address. -/
def Memory.read : Memory → Nat → Byte
  | [], _ => Memory.blank
  | c :: m, a => if c.1 = a then c.2 else Memory.read m a

/-- Write one byte, keeping the canonical form. -/
def Memory.write : Memory → Nat → Byte → Memory
  | [], a, v => if v = Memory.blank then [] else [(a, v)]
  | c :: m, a, v =>
    if a < c.1 then (if v = Memory.blank then c :: m else (a, v) :: c :: m)
    else if a = c.1 then (if v = Memory.blank then m else (a, v) :: m)
    else c :: Memory.write m a v

/-- The bytes at `a`, `a + 1`, … , `n` of them. -/
def Memory.slice (m : Memory) : Nat → Nat → List Byte
  | _, 0 => []
  | a, n + 1 => Memory.read m a :: Memory.slice m (a + 1) n

/-- The memory that holds these bytes from address `a` up. -/
def Memory.ofBytesFrom : Nat → List Byte → Memory
  | _, [] => []
  | a, b :: bs =>
    if b = Memory.blank then Memory.ofBytesFrom (a + 1) bs
    else (a, b) :: Memory.ofBytesFrom (a + 1) bs

/-- The memory that holds these bytes from address 0 up. -/
def Memory.ofBytes (bytes : List Byte) : Memory := Memory.ofBytesFrom 0 bytes

/-- A byte sequence as an image (00_scope.md R12: `rom` and `buffer` are finite byte sequences). -/
def Image.ofBytes (bytes : List Byte) : Image := ⟨bytes.length, Memory.ofBytes bytes⟩

/-- The representation of an image is canonical and holds nothing past its length. -/
abbrev Image.wf (im : Image) : Prop := Memory.wf im.mem ∧ Memory.below im.mem im.len

/-- 10_state.md R28: `len % 256 == 0 ∧ len ≤ 1_048_576`. A length of 0 meets it (90_conflicts.md C1). -/
def Image.valid (im : Image) : Bool := im.len % Config.chunk == 0 && decide (im.len ≤ Config.romMax)

/-- 20_memory.md R53: the packet buffer as the byte sequence port-level SUM covers (42_checksum.md R157). -/
def pktImage (s : State) : Image := ⟨Config.pktLen, s.pkt⟩

/-- 43_packet_formatter.md R182: `PKT[0]` to `PKT[260]` in increasing index order. -/
def pktBytes (s : State) : List Byte := Memory.slice s.pkt 0 Config.pktLen

/-- R12, 20_memory.md R50 to R53 `MemRead(S:a, 1)`: the byte at address `a` of a space, none outside it. -/
def memRead (sp : Space) (a : Nat) (s : State) : Option Byte :=
  match sp with
  | .romimg => if a < s.rom.len then some (Memory.read s.rom.mem a) else none
  | .lut => if a < Config.lutDepth then some (reverse (BitVec.ofNat 8 a)) else none
  | .pkt => if a < Config.pktLen then some (Memory.read s.pkt a) else none

/-- R12 `MemWrite(PKT:k, 1, v)`: only PKT is writable, one byte at a time. -/
def pktWrite (k : Nat) (v : Byte) (s : State) : State := s.setPkt (Memory.write s.pkt k v)

/-- R12 `return v`: the operation ends with `status` = `OK` and this result. -/
def respond (result : Offset) (s : State) : State := s.setRsp (some (.ok result))

/-- R12, 60_exceptions.md R240, R246 `raise K(c)`: the operation ends with the error in its response and writes
no state. There is no handler, no saved register and nothing to return from (R247). -/
def raise (f : Failure) (s : State) : State := s.setRsp (some (.error f))

/-- 70_reset_and_hazards.md R270, R271: the reset input. The block takes its reset values and owes no
response; the ROM image, the host and the line are not the block's and stay (logs 3, 11). -/
def resetBlock (s : State) : State :=
  ((((s.setPkt State.reset.pkt).setPktv State.reset.pktv).setAcc State.reset.acc).setLatch
    State.reset.off State.reset.reven).setRsp none

end Sys2Proof.Machine
end

