-- ==== Sys2Proof/Machine/Operands.lean ====
section
/-!
DEFINITION. Operand forms and the response fields: the functional level's integers from the port's unsigned
fields (00_scope.md R13, 92_eei_decisions.md D3), results as 24-bit fields, and the codes of a response
(30_encoding.md R91 to R93).
-/

namespace Sys2Proof.Machine

/-- R13, D3: a command word's unsigned field as the operand of the functional rule. -/
def zext {n : Nat} (v : BitVec n) : Int := (v.toNat : Int)

/-- R91: the result field of ENC, `{msb, mid, lsb}`. -/
def addressResult (a : Byte × Byte × Byte) : Offset := a.1 ++ a.2.1 ++ a.2.2

/-- R91: the result field of REV and SUM, the byte in bits 7 to 0 and zero above. -/
def byteResult (b : Byte) : Offset := 0#16 ++ b

/-- 43_packet_formatter.md R178: `offset[23:0]`. -/
def low24 (offset : Int) : Offset := BitVec.ofInt 24 offset

/-- 30_encoding.md R92: the kinds of status, an enumerated type (92_eei_decisions.md D5). -/
inductive Status where
  | ok
  | outOfRange
  | invalidArgument
  | noPacket
  | illegalCommand
  deriving DecidableEq, Repr

/-- R92: the number of a status. Numbers 5 to 7 do not occur. -/
def Status.code : Status → BitVec 3
  | .ok => 0#3
  | .outOfRange => 1#3
  | .invalidArgument => 2#3
  | .noPacket => 3#3
  | .illegalCommand => 4#3

/-- R93, 60_exceptions.md R241: the status a failure is reported under. -/
def Failure.status : Failure → Status
  | .encBelowZero => .outOfRange
  | .encAboveMax => .outOfRange
  | .sumOffsetNegative => .invalidArgument
  | .sumCountNotPositive => .invalidArgument
  | .sumPastEnd => .invalidArgument
  | .pktMisaligned => .outOfRange
  | .pktPastEnd => .outOfRange
  | .pktOffsetNegative => .outOfRange
  | .noPacket => .noPacket
  | .illegalCommand => .illegalCommand

/-- R93: the number of the failing constraint, 0 for the two kinds that name none. -/
def Failure.cons : Failure → BitVec 2
  | .encBelowZero => 1#2
  | .encAboveMax => 2#2
  | .sumOffsetNegative => 1#2
  | .sumCountNotPositive => 2#2
  | .sumPastEnd => 3#2
  | .pktMisaligned => 1#2
  | .pktPastEnd => 2#2
  | .pktOffsetNegative => 3#2
  | .noPacket => 0#2
  | .illegalCommand => 0#2

/-- R91: the `status` field. -/
def Response.status : Response → Status
  | .ok _ => .ok
  | .error f => f.status

/-- R91: the `cons` field, 0 when the status is `OK`. -/
def Response.cons : Response → BitVec 2
  | .ok _ => 0#2
  | .error f => f.cons

/-- R91, 60_exceptions.md R248: the `result` field, zero on any error. -/
def Response.result : Response → Offset
  | .ok r => r
  | .error _ => 0#24

/-- R91: the packed response `{status, cons, result}`. -/
def Response.pack (r : Response) : ResponseWord := r.status.code ++ r.cons ++ r.result

/-- 60_exceptions.md R241, 45_host_environment.md R222: the host treats every error of the block as
`ArgumentError`. -/
def Failure.errorClass : Failure → ErrorClass
  | _ => .argumentError

/-- 45_host_environment.md R201, R221: both errors of LOAD are of the class `ValidationError`. -/
def LoadError.errorClass : LoadError → ErrorClass
  | _ => .validationError

end Sys2Proof.Machine
end

