-- ==== Sys2Proof/Machine/AddressEncoder.lean ====
section
/-!
DEFINITION. ENC, the 24-bit big-endian address encoder (40_address_encoder.md), and the increment-based
counters it agrees with (R114).
-/

namespace Sys2Proof.Machine

/-- R112: the three formulas, `(offset >> 16) & 0xFF`, `(offset >> 8) & 0xFF`, `offset & 0xFF`. -/
def addressBytes (offset : Nat) : Byte × Byte × Byte :=
  (BitVec.ofNat 8 (offset >>> 16 &&& 0xFF), BitVec.ofNat 8 (offset >>> 8 &&& 0xFF),
    BitVec.ofNat 8 (offset &&& 0xFF))

/-- R111, R112 `ENC(offset)` at the functional level. -/
def encodeAddress (offset : Int) : Except Failure (Byte × Byte × Byte) :=
  if offset < 0 then .error .encBelowZero
  else if offset > Config.offsetMax then .error .encAboveMax
  else .ok (addressBytes offset.toNat)

/-- R111 to R113: ENC as an operation of the block; it writes no state but its response. -/
def runEnc (offset : Int) (s : State) : State :=
  match encodeAddress offset with
  | .ok a => respond (addressResult a) s
  | .error f => raise f s

/-- R115: the command ENC. -/
def execEnc (offset : Offset) (s : State) : Host.Outcome State Fault Refusal :=
  .next (runEnc (zext offset) s)

/-- R114: one increment of the three-byte counter, with carry from `l` to `d` to `m`. -/
def counterStep (c : Byte × Byte × Byte) : Byte × Byte × Byte :=
  if c.2.2 = 0xFF#8 then
    if c.2.1 = 0xFF#8 then (c.1 + 1#8, 0#8, 0#8) else (c.1, c.2.1 + 1#8, 0#8)
  else (c.1, c.2.1, c.2.2 + 1#8)

/-- R114: the counter after `o` increments from `(0, 0, 0)`. -/
def counterAfter : Nat → Byte × Byte × Byte
  | 0 => (0#8, 0#8, 0#8)
  | o + 1 => counterStep (counterAfter o)

/-- R114: one step of the per-packet counter, which adds 1 to `d` with carry into `m` and keeps `l`. -/
def packetCounterStep (c : Byte × Byte × Byte) : Byte × Byte × Byte :=
  if c.2.1 = 0xFF#8 then (c.1 + 1#8, 0#8, c.2.2) else (c.1, c.2.1 + 1#8, c.2.2)

/-- R114: the per-packet counter after `i` packets from `(0, 0, 0)`. -/
def packetCounterAfter : Nat → Byte × Byte × Byte
  | 0 => (0#8, 0#8, 0#8)
  | i + 1 => packetCounterStep (packetCounterAfter i)

end Sys2Proof.Machine
end

