-- ==== Sys2Proof/Machine/BitReversal.lean ====
section
/-!
DEFINITION. REV, the bit-reversal lookup (41_bit_reversal.md). The table is `lutTable`.
-/

namespace Sys2Proof.Machine

/-- R131: REV as an operation of the block; it has no precondition and writes no state but its response. -/
def runRev (b : Byte) (s : State) : State := respond (byteResult (reverse b)) s

/-- R135: the command REV. -/
def execRev (b : Byte) (s : State) : Host.Outcome State Fault Refusal := .next (runRev b s)

end Sys2Proof.Machine
end

