-- ==== Sys2Proof/Machine/Flags.lean ====
section
/-!
DEFINITION. The one flag of the block, PKTV (10_state.md R26, R32), and the accumulator step, whose carry
sets no flag (42_checksum.md R153, R156).
-/

namespace Sys2Proof.Machine

/-- R26: a successful PKT sets PKTV. -/
def setPacketValid (s : State) : State := s.setPktv true

/-- R26, 43_packet_formatter.md R185: a failed PKT clears PKTV. -/
def clearPacketValid (s : State) : State := s.setPktv false

/-- 42_checksum.md R156: `ACC <- (ACC + v)[7:0]`, the carry out of bit 7 discarded and recorded nowhere. -/
def accStep (acc v : Byte) : Byte := acc + v

/-- R152: the 8-bit sum of bytes, from `0x00`, in increasing index order. -/
def accumulate (bytes : List Byte) : Byte := bytes.foldl accStep 0x00#8

end Sys2Proof.Machine
end

