-- ==== Sys2Proof/Machine/Checksum.lean ====
section
/-!
DEFINITION. SUM, the 8-bit additive checksum (42_checksum.md).
-/

namespace Sys2Proof.Machine

/-- R151, R152 `SUM(buffer, offset, count)` at the functional level, over any byte sequence: the checks in the
listed order, the sum of `buffer[offset .. offset + count)`. `offset + count` is exact. -/
def checksum (buffer : Image) (offset count : Int) : Except Failure Byte :=
  if offset < 0 then .error .sumOffsetNegative
  else if count ≤ 0 then .error .sumCountNotPositive
  else if offset + count > buffer.len then .error .sumPastEnd
  else .ok (accumulate (Memory.slice buffer.mem offset.toNat count.toNat))

/-- R152, R158: SUM as an operation of the block; a success writes ACC, a failure nothing. -/
def runSum (buffer : Image) (offset count : Int) (s : State) : State :=
  match checksum buffer offset count with
  | .ok v => respond (byteResult v) (s.setAcc v)
  | .error f => raise f s

/-- R157: the command SUM, over the packet buffer, which must hold a packet. -/
def execSum (offset : Offset) (count : BitVec 9) (s : State) : Host.Outcome State Fault Refusal :=
  if s.pktv then .next (runSum (pktImage s) (zext offset) (zext count) s)
  else .next (raise .noPacket s)

end Sys2Proof.Machine
end

