-- ==== Sys2Proof/Machine/PacketFormatter.lean ====
section
/-!
DEFINITION. PKT, the packet-framing formatter (43_packet_formatter.md R170 to R179, R185).
-/

namespace Sys2Proof.Machine

/-- R175: a source byte as it stands in the payload. -/
def payloadByte (reverseBits : Bool) (b : Byte) : Byte := if reverseBits then reverse b else b

/-- R175: the 256 payload bytes of the chunk at `offset`, in order. -/
def chunkPayload (rom : Image) (offset : Nat) (reverseBits : Bool) : List Byte :=
  (Memory.slice rom.mem offset Config.chunk).map (payloadByte reverseBits)

/-- R172 to R176: command byte, address bytes, payload, and the sum of everything between the first and the
last byte. -/
def framePacket (address : Byte × Byte × Byte) (payload : List Byte) : List Byte :=
  let covered := address.1 :: address.2.1 :: address.2.2 :: payload
  Config.cmdOpcode :: (covered ++ [accumulate covered])

/-- R171, R172 `PKT(rom, offset, reverseBits)` at the functional level: the checks in order, then the 261
bytes. ENC's own failure passes on (90_conflicts.md C5; log 12). -/
def buildPacket (rom : Image) (offset : Int) (reverseBits : Bool) : Except Failure (List Byte) :=
  if offset % Config.chunk ≠ 0 then .error .pktMisaligned
  else if offset + Config.chunk > rom.len then .error .pktPastEnd
  else if offset < 0 then .error .pktOffsetNegative
  else
    match encodeAddress offset with
    | .error f => .error f
    | .ok a => .ok (framePacket a (chunkPayload rom offset.toNat reverseBits))

/-- R178: the state written on success: all of PKT, ACC, OFF, REVEN and PKTV. -/
def storePacket (p : List Byte) (offset : Int) (reverseBits : Bool) (s : State) : State :=
  setPacketValid ((((s.setPkt (Memory.ofBytes p)).setAcc (p.getD 260 0#8)).setLatch (low24 offset)
    reverseBits))

/-- R172, R185: PKT as an operation of the block. A session whose ROM image breaks its premise has no
meaning (70_reset_and_hazards.md R275; log 13). -/
def runPkt (offset : Int) (reverseBits : Bool) (s : State) : Host.Outcome State Fault Refusal :=
  if s.rom.valid then
    match buildPacket s.rom offset reverseBits with
    | .ok p => .next (respond 0#24 (storePacket p offset reverseBits s))
    | .error f => .next (raise f (clearPacketValid s))
  else .refused .romPremise

/-- R179: the command PKT. -/
def execPkt (offset : Offset) (rev : Bool) (s : State) : Host.Outcome State Fault Refusal :=
  runPkt (zext offset) rev s

end Sys2Proof.Machine
end

