-- ==== Sys2Proof/WellFormed.lean ====
section
/-!
DEFINITION. Which instruction terms have an encoding. The operand fields of the four commands are of the
field's own width (30_encoding.md R88), so only the packet has a check: its payload is 256 bytes (R84).
-/

namespace Sys2Proof

/-- The term fits its encoding: a packet's payload has exactly 256 bytes (30_encoding.md R84, R99). -/
def Instr.wellFormed : Instr → Bool
  | .enc _ => true
  | .rev _ => true
  | .sum _ _ => true
  | .pkt _ _ => true
  | .packet5A _ payload _ => payload.length == Config.chunk

end Sys2Proof
end

