-- ==== Sys2Proof/Decode.lean ====
section
/-!
DEFINITION. Decoding command words and wire packets, rejecting by name, and encoding (30_encoding.md R81,
R88 to R90, R94, R98).
-/

namespace Sys2Proof

/-- Why a code is no instruction. The first five are the reserved-field checks of 30_encoding.md R94; the
last two say that a frame is not the one packet the spec defines (R81, R95). -/
inductive DecodeError where
  | encReserved
  | revReserved
  | revArgHigh
  | sumReserved
  | pktReserved
  | frameLength
  | frameOpcode
  deriving DecidableEq, Repr

/-- R88: `CW[35:34]`, the operation select. -/
def opField (w : CommandWord) : BitVec 2 := w.extractLsb' 34 2

/-- R88: `CW[33]`. -/
def revField (w : CommandWord) : BitVec 1 := w.extractLsb' 33 1

/-- R88: `CW[32:24]`. -/
def countField (w : CommandWord) : BitVec 9 := w.extractLsb' 24 9

/-- R88: `CW[23:0]`. -/
def argField (w : CommandWord) : Offset := w.extractLsb' 0 24

/-- R88: `arg[23:8]`, reserved in REV. -/
def argHigh (w : CommandWord) : BitVec 16 := w.extractLsb' 8 16

/-- R88: `arg[7:0]`, the byte of REV. -/
def argByte (w : CommandWord) : Byte := w.extractLsb' 0 8

/-- R98: decode a command word. Total: reserved fields are checked first (R94), and each `op` value is one
operation (R89). -/
def decodeWord (w : CommandWord) : Except DecodeError Instr :=
  if opField w = 0b00#2 then
    if revField w ≠ 0#1 ∨ countField w ≠ 0#9 then .error .encReserved
    else .ok (.enc (argField w))
  else if opField w = 0b01#2 then
    if revField w ≠ 0#1 ∨ countField w ≠ 0#9 then .error .revReserved
    else if argHigh w ≠ 0#16 then .error .revArgHigh
    else .ok (.rev (argByte w))
  else if opField w = 0b10#2 then
    if revField w ≠ 0#1 then .error .sumReserved
    else .ok (.sum (argField w) (countField w))
  else
    if countField w ≠ 0#9 then .error .pktReserved
    else .ok (.pkt (argField w) (revField w == 1#1))

/-- R81, R86: read a frame as the 0x5A packet: 261 bytes, byte 0 the command, bytes 1 to 3 the address most
significant first, 256 payload bytes, the checksum byte. The checksum's value is not part of the pattern
(the table's mask covers byte 0 alone; log 9). -/
def decodeFrame (bytes : List Byte) : Except DecodeError Instr :=
  if bytes.length ≠ Config.pktLen then .error .frameLength
  else if bytes.getD 0 0#8 ≠ Config.cmdOpcode then .error .frameOpcode
  else .ok (.packet5A (bytes.getD 1 0#8 ++ bytes.getD 2 0#8 ++ bytes.getD 3 0#8)
    ((bytes.drop 4).take Config.chunk) (bytes.getD 260 0#8))

/-- Decode a code of either kind. -/
def decode : Code → Except DecodeError Instr
  | .word w => decodeWord w
  | .frame bytes => decodeFrame bytes

/-- R81, R83: the bytes of a packet with these fields, byte 0 first. -/
def packetBytes (addr : Offset) (payload : List Byte) (checksum : Byte) : List Byte :=
  Config.cmdOpcode :: addr.extractLsb' 16 8 :: addr.extractLsb' 8 8 :: addr.extractLsb' 0 8
    :: (payload ++ [checksum])

/-- R88: a command word from its four fields. -/
def packWord (op : BitVec 2) (rev : BitVec 1) (count : BitVec 9) (arg : Offset) : CommandWord :=
  op ++ rev ++ count ++ arg

/-- R90: the code of an instruction. -/
def encode : Instr → Code
  | .enc offset => .word (packWord 0b00#2 0#1 0#9 offset)
  | .rev b => .word (packWord 0b01#2 0#1 0#9 (0#16 ++ b))
  | .sum offset count => .word (packWord 0b10#2 0#1 count offset)
  | .pkt offset rev => .word (packWord 0b11#2 (BitVec.ofBool rev) 0#9 offset)
  | .packet5A addr payload checksum => .frame (packetBytes addr payload checksum)

/-- The `n` bytes of a number, most significant byte first, in front of `rest`. -/
def bytesBE : Nat → Nat → List Byte → List Byte
  | 0, _, rest => rest
  | n + 1, w, rest => bytesBE n (w / 256) (BitVec.ofNat 8 w :: rest)

/-- The code whose bits, numbered as spec/opcode_table.json numbers them, are `w`: the table numbers a
packet's command byte 2087:2080 and its checksum byte 7:0, and a command word's bits as R88 does (log 10). -/
def tableCode (nbits w : Nat) : Code :=
  if nbits = 2088 then .frame (bytesBE 261 w []) else .word (BitVec.ofNat 36 w)

/-- The number fits the row: a packet has 2088 bits, a command word 36 bits in five whole bytes. -/
def tableFits (nbits w : Nat) : Bool :=
  nbits == 2088 || (decide (nbits ≤ 40) && decide (w < 68719476736))

/-- What the decoder reads from an instruction whose bits are `w`. -/
def decodeTableWord (nbits w : Nat) : Option Instr :=
  if tableFits nbits w then (decode (tableCode nbits w)).toOption else none

end Sys2Proof
end

