-- ==== Sys2Proof/Machine/WirePacket.lean ====
section
/-!
DEFINITION. PACKET_5A, the packet on the serial line (30_encoding.md R81 to R86, 20_memory.md R55). What the
flashing device does with it is outside the spec (00_scope.md R6; log 7).
-/

namespace Sys2Proof.Machine

/-- R81, R55: the packet's bytes are sent as they are, byte 0 first. -/
def sendBytes (bytes : List Byte) (s : State) : State := s.setLine (s.line ++ bytes)

/-- R81: the packet goes on the line. It changes no state of the block (43_packet_formatter.md R182). -/
def execPacket5A (addr : Offset) (payload : List Byte) (checksum : Byte) (s : State) :
    Host.Outcome State Fault Refusal :=
  .next (sendBytes (packetBytes addr payload checksum) s)

end Sys2Proof.Machine
end

