-- ==== Sys2Proof/Machine/Dispatch.lean ====
section
/-!
DEFINITION. One arm per constructor of Instr, each one call of the instruction's meaning.
-/

namespace Sys2Proof.Machine

def exec (i : Instr) (s : State) : Host.Outcome State Fault Refusal :=
  match i with
  | .enc offset => Sys2Proof.Machine.execEnc offset s
  | .rev b => Sys2Proof.Machine.execRev b s
  | .sum offset count => Sys2Proof.Machine.execSum offset count s
  | .pkt offset rev => Sys2Proof.Machine.execPkt offset rev s
  | .packet5A addr payload checksum => Sys2Proof.Machine.execPacket5A addr payload checksum s

end Sys2Proof.Machine
end

