-- ==== Sys2Proof/Machine/Command.lean ====
section
/-!
DEFINITION. Running a code: decode, then execute (30_encoding.md R98).
-/

namespace Sys2Proof.Machine

/-- What a code that is no instruction does. A command word answers `IllegalCommand` and writes no state, not
even PKTV (30_encoding.md R94); a frame that is no 0x5A packet is undefined by the source (R95). -/
def runUndecoded (c : Code) (s : State) : Host.Outcome State Fault Refusal :=
  match c with
  | .word _ => .next (raise .illegalCommand s)
  | .frame _ => .refused .undefinedPacket

/-- R98: the reserved-field check of the decoder comes before every check of the operation. -/
def runCode (c : Code) (s : State) : Host.Outcome State Fault Refusal :=
  match decode c with
  | .ok i => exec i s
  | .error _ => runUndecoded c s

end Sys2Proof.Machine
end

