-- ==== Sys2Proof/Machine/HostEnv.lean ====
section
/-!
DEFINITION. The host: LOAD, the packet read-out, and the transfer state machine of FLASH
(45_host_environment.md R200 to R225).
-/

namespace Sys2Proof.Machine

/-- R200 to R202 `load(bytes)`: the checks in order, then the bytes unchanged. -/
def loadImage (file : List Byte) : Except LoadError Image :=
  if file.length > Config.romMax then .error .tooLarge
  else if file.length % Config.chunk ≠ 0 then .error .misalignedImage
  else .ok (Image.ofBytes file)

/-- A session is running: from Opening until Closed (R205, R208). -/
def Phase.active : Phase → Bool
  | .idle => false
  | .closed _ => false
  | _ => true

/-- The state with another phase. -/
def setPhase (p : Phase) (s : State) : State := s.setHost { s.host with phase := p }

/-- The packet index of a phase that has one (R208). -/
def Phase.packetIndex : Phase → Option Nat
  | .sending i => some i
  | .awaitingAck i => some i
  | .retrying i => some i
  | _ => none

/-- R220, R222, 60_exceptions.md R247: the phase after an error. A running session aborts; a session that is
closing keeps its first failure, and a success is not kept (DEDUCED, log 25). -/
def Phase.abort (c : ErrorClass) : Phase → Phase
  | .idle => .idle
  | .closed r => .closed r
  | .closing (.failure c') => .closing (.failure c')
  | .closing .success => .closing (.failure c)
  | .opening => .closing (.failure c)
  | .sending _ => .closing (.failure c)
  | .awaitingAck _ => .closing (.failure c)
  | .retrying _ => .closing (.failure c)

/-- R222, R225: the host takes the response of a command. An error aborts the session as its class. -/
def takeResponse (s : State) : State :=
  match s.rsp with
  | some (.error f) => setPhase (s.host.phase.abort f.errorClass) s
  | _ => s

/-- The instruction is the PKT command of the packet in flight (R210, R214). -/
def ownPacket (h : HostSide) (offset : Offset) (rev : Bool) : Bool :=
  match h.phase.packetIndex with
  | some k => offset == BitVec.ofNat 24 (Config.chunk * k) && rev == h.reverseBits
  | none => false

/-- 70_reset_and_hazards.md R277: the host knows which packet it had built last. A PKT command for another offset or
flag destroys the packet in flight, and with it the ability to resend by re-reading. -/
def notePacket (i : Instr) (s : State) : State :=
  match i with
  | .enc _ => s
  | .rev _ => s
  | .sum _ _ => s
  | .pkt offset rev => s.setHost { s.host with packetHeld := ownPacket s.host offset rev }
  | .packet5A _ _ _ => s

/-- What the host sees after a command of a session. -/
def observed (see : State → State) (o : Host.Outcome State Fault Refusal) :
    Host.Outcome State Fault Refusal :=
  match o with
  | .next t => .next (see t)
  | .fault r => .fault r
  | .refused r => .refused r

/-- What a running session has no transition for (R225): the transport is the session's own, so no packet comes from
elsewhere (R218, 20_memory.md R64; log 7). -/
def sessionRefusal (i : Instr) : Option Refusal :=
  match i with
  | .enc _ => none
  | .rev _ => none
  | .sum _ _ => none
  | .pkt _ _ => none
  | .packet5A _ _ _ => some .transportOwned

/-- A code during a session: every command runs, then the host takes note of the packet and of the response. -/
def runSessionCode (c : Code) (s : State) : Host.Outcome State Fault Refusal :=
  match decode c with
  | .ok i =>
    match sessionRefusal i with
    | some r => .refused r
    | none => observed (fun t => takeResponse (notePacket i t)) (exec i s)
  | .error _ => observed takeResponse (runUndecoded c s)

/-- A code that comes to the port or the line. -/
def runPortCode (c : Code) (s : State) : Host.Outcome State Fault Refusal :=
  if s.host.phase.active then runSessionCode c s else runCode c s

/-- R200 to R203: LOAD. A good file becomes the session's ROM image; a bad one has no side effect but the
result. Not while a session runs: the image must not change then (R225). -/
def runLoad (file : List Byte) (s : State) : Host.Outcome State Fault Refusal :=
  if s.host.phase.active then .refused .sessionActive
  else
    match loadImage file with
    | .ok im => .next ((s.setRom im).setHost { s.host with loadError := none })
    | .error e => .next (s.setHost { s.host with loadError := some e })

/-- 43_packet_formatter.md R182, 10_state.md R22: the host reads byte `k` of the packet. Reading changes
neither PKT nor PKTV; while PKTV = 0 there is nothing to read. -/
def runReadOut (k : Nat) (s : State) : Host.Outcome State Fault Refusal :=
  if s.pktv then
    match memRead .pkt k s with
    | some b => .next (s.setHost { s.host with readData := some b })
    | none => .fault (.addressOutsideSpace .pkt k)
  else .refused .packetUnreadable

/-- R205, R209: FLASH begins: Idle → Opening. One session at a time; the ROM image must meet its premise. -/
def runFlash (reverseBits : Bool) (params : HostParams) (s : State) :
    Host.Outcome State Fault Refusal :=
  if s.host.phase.active then .refused .sessionActive
  else if params.retryLimit = 0 then .refused .retryLimitZero
  else if s.rom.valid then
    .next (s.setHost { s.host with
      phase := .opening, params := params, reverseBits := reverseBits, resends := 0, progress := 0 })
  else .refused .romPremise

/-- R210: the command word that builds packet `i`, `PKT 256 × i, reverseBits`. -/
def packetCommand (i : Nat) (reverseBits : Bool) : Code :=
  encode (.pkt (BitVec.ofNat 24 (Config.chunk * i)) reverseBits)

/-- R210: the host issues the command that builds packet `i` and goes on in phase `p`. An error of the block
aborts the session as `ArgumentError` (R222). -/
def issuePacket (i : Nat) (p : Phase) (s : State) : Host.Outcome State Fault Refusal :=
  match runCode (packetCommand i s.host.reverseBits) s with
  | .next t =>
    match t.rsp with
    | some (.error f) => .next (setPhase (.closing (.failure f.errorClass)) t)
    | _ => .next (t.setHost { t.host with phase := p, packetHeld := true })
  | .fault r => .fault r
  | .refused r => .refused r

/-- R210, R211: enter Sending(i): build packet `i`, or Closing(Success) when `i` is past the last index. On an empty
image no packet is sent (R210); that the session then ends in success is a DESIGN CHOICE (log 26). -/
def startSending (i : Nat) (s : State) : Host.Outcome State Fault Refusal :=
  if i < s.rom.len / Config.chunk then issuePacket i (.sending i) s
  else .next (setPhase (.closing .success) s)

/-- R182: the packet in PKT goes on the line as it is, then the host awaits the acknowledgment. -/
def sendPacket (i : Nat) (s : State) : Host.Outcome State Fault Refusal :=
  match runCode (.frame (pktBytes s)) s with
  | .next t => .next (setPhase (.awaitingAck i) t)
  | .fault r => .fault r
  | .refused r => .refused r

/-- R210, R212, R214: packet `i` is sent, or sent again. The host reads PKT while it holds this packet, and else,
after another PKT (70_reset_and_hazards.md R277) or a reset, it issues the same PKT command again first (log 14). -/
def transmit (i : Nat) (s : State) : Host.Outcome State Fault Refusal :=
  if s.pktv && s.host.packetHeld then sendPacket i s
  else
    match issuePacket i s.host.phase s with
    | .next t => if t.pktv then sendPacket i t else .next t
    | .fault r => .fault r
    | .refused r => .refused r

/-- R212, D22: how many times a packet may be resent: `RETRY_LIMIT`, less the first transmission where the limit
counts it. -/
def HostParams.maxResends (p : HostParams) : Nat :=
  if p.retryCountsFirst then p.retryLimit - 1 else p.retryLimit

/-- R212: Retrying(i) while resends are left, else `ProtocolError` and Closing(Failure). -/
def retryOrFail (i : Nat) (s : State) : State :=
  if s.host.resends < s.host.params.maxResends then
    s.setHost { s.host with phase := .retrying i, resends := s.host.resends + 1 }
  else setPhase (.closing (.failure .protocolError)) s

/-- R211, R215: packet `i` is acknowledged: report progress, go on with packet `i + 1`. -/
def acknowledged (i : Nat) (s : State) : Host.Outcome State Fault Refusal :=
  startSending (i + 1)
    (s.setHost { s.host with progress := s.host.progress + 1, resends := 0 })

/-- R211, R212: a frame arrives while packet `i` awaits its acknowledgment. A frame that is neither changes
nothing: the wait goes on until the timeout (log 15). -/
def runReply (i : Nat) (frame : List Byte) (s : State) : Host.Outcome State Fault Refusal :=
  if frame ∈ s.host.params.ackFrames then acknowledged i s
  else if frame ∈ s.host.params.nakFrames then .next (retryOrFail i s)
  else .next s

/-- R209: the transport is acquired. An event that the phase does not wait for, here and below, changes nothing
(log 18). -/
def runOpened (s : State) : Host.Outcome State Fault Refusal :=
  match s.host.phase with
  | .opening => startSending 0 (s.setHost { s.host with transportOpen := true })
  | _ => .next s

/-- R209: failure to open is `TransportError`, terminal; there is nothing to release (log 17). -/
def runOpenFailed (s : State) : Host.Outcome State Fault Refusal :=
  match s.host.phase with
  | .opening => .next (setPhase (.closed (.failure .transportError)) s)
  | _ => .next s

/-- R210, R212, R280: the write of the packet completes. -/
def runWritten (s : State) : Host.Outcome State Fault Refusal :=
  match s.host.phase with
  | .sending i => transmit i s
  | .retrying i => transmit i s
  | _ => .next s

/-- R211: a frame arrives. The host reads one only while it awaits an acknowledgment (R280). -/
def runReplyEvent (frame : List Byte) (s : State) : Host.Outcome State Fault Refusal :=
  match s.host.phase with
  | .awaitingAck i => runReply i frame s
  | _ => .next s

/-- R219, 60_exceptions.md R242: a suspension point's bound runs out. An open fails; a write or an
acknowledgment read leads to Retrying(i) (log 16). -/
def runTimeout (s : State) : Host.Outcome State Fault Refusal :=
  match s.host.phase with
  | .opening => .next (setPhase (.closed (.failure .transportError)) s)
  | .sending i => .next (retryOrFail i s)
  | .retrying i => .next (retryOrFail i s)
  | .awaitingAck i => .next (retryOrFail i s)
  | _ => .next s

/-- R221, R222: an I/O failure outside protocol semantics aborts the session, and during the open it is a failure
to open (R209). In Closing the transport is still released (R213), and a success is not kept (log 25). -/
def runIoError (s : State) : Host.Outcome State Fault Refusal :=
  match s.host.phase with
  | .opening => .next (setPhase (.closed (.failure .transportError)) s)
  | p => .next (setPhase (p.abort .transportError) s)

/-- R220: the user aborts a running session. Toward the block it means only that no further command comes. With no
session there is nothing to abort. -/
def runCancel (s : State) : Host.Outcome State Fault Refusal :=
  .next (setPhase (s.host.phase.abort .cancelled) s)

/-- R213: Closing → Closed, the transport is released if it is held. That the release is an event of its own, so that
other inputs can come between Closing and Closed, is a DESIGN CHOICE (log 27). -/
def runReleased (s : State) : Host.Outcome State Fault Refusal :=
  match s.host.phase with
  | .closing r =>
    .next (s.setHost { s.host with
      phase := .closed r, transportOpen := false,
      releases := s.host.releases + (if s.host.transportOpen then 1 else 0) })
  | _ => .next s

/-- R209 to R213: one event of a running FLASH. -/
def runEvent (e : HostEvent) (s : State) : Host.Outcome State Fault Refusal :=
  match e with
  | .opened => runOpened s
  | .openFailed => runOpenFailed s
  | .written => runWritten s
  | .reply frame => runReplyEvent frame s
  | .timeout => runTimeout s
  | .ioError => runIoError s
  | .released => runReleased s
  | .cancel => runCancel s

end Sys2Proof.Machine
end

