-- ==== Sys2Proof/Machine/Inputs.lean ====
section
/-!
DEFINITION. What each input does, and where an instruction is placed so that the next step runs it.
-/

namespace Sys2Proof.Machine

/-- One input, already taken off the list. -/
def handleInput (x : Input) (s : State) : Host.Outcome State Fault Refusal :=
  match x with
  | .code c => runPortCode c s
  | .reset => .next (resetBlock s)
  | .readOut k => runReadOut k s
  | .load file => runLoad file s
  | .flash reverseBits params => runFlash reverseBits params s
  | .event e => runEvent e s

/-- With no input the block waits for a command and nothing changes (10_state.md R31, R34; log 1). -/
def nextInput (s : State) : Host.Outcome State Fault Refusal :=
  match s.inputs with
  | [] => .next s
  | x :: rest => handleInput x (s.setInputs rest)

/-- Put a code first among the inputs. -/
def placeCode (c : Code) (s : State) : State := s.setInputs (.code c :: s.inputs)

end Sys2Proof.Machine
end

