-- ==== Sys2Proof/Machine/Step.lean ====
section
/-!
DEFINITION. One step of the machine: the next input. The block has no program counter and fetches nothing
(10_state.md R31); an instruction comes to it as a command word at its port.
-/

namespace Sys2Proof.Machine

/-- One step: take the next input (log 1). -/
def step (s : State) : Host.Outcome State Fault Refusal := nextInput s

/-- The state with the instruction whose bits are `w` as the next input (logs 1, 10). -/
def State.withFetchWord (s : State) (nbits w : Nat) : State := placeCode (tableCode nbits w) s

end Sys2Proof.Machine
end

