-- ==== Sys2Proof/Machine/Serial.lean ====
section
/-!
DEFINITION. The byte-serial reference sequence of PKT (43_packet_formatter.md R180): the packet one byte at a
time with one accumulator. It is a refinement of `runPkt` (R181); exec uses `runPkt`.
-/

namespace Sys2Proof.Machine

/-- R180: latched after the checks have passed; the old packet is no longer valid. -/
def serialStart (offset : Offset) (rev : Bool) (s : State) : State :=
  (clearPacketValid s).setLatch offset rev

/-- R180: the value `v` of byte `k`. -/
def serialValue (k : Nat) (s : State) : Byte :=
  if k = 0 then Config.cmdOpcode
  else if k = 1 then s.off.extractLsb' 16 8
  else if k = 2 then s.off.extractLsb' 8 8
  else if k = 3 then s.off.extractLsb' 0 8
  else if k = 260 then s.acc
  else payloadByte s.reven (Memory.read s.rom.mem (s.off.toNat + k - 4))

/-- R180: ACC after byte `k`: cleared at 0, stepped by bytes 1 to 259, kept at 260. -/
def serialAcc (k : Nat) (s : State) : Byte :=
  if k = 0 then 0x00#8 else if k = 260 then s.acc else accStep s.acc (serialValue k s)

/-- R180: one byte of the sequence. -/
def serialByte (k : Nat) (s : State) : State :=
  let t := (pktWrite k (serialValue k s) s).setAcc (serialAcc k s)
  if k = 260 then setPacketValid t else t

/-- R180: bytes `k`, `k + 1`, … , `n` of them. -/
def serialFrom : Nat → Nat → State → State
  | _, 0, s => s
  | k, n + 1, s => serialFrom (k + 1) n (serialByte k s)

/-- R180: the whole sequence, `k` = 0 to 260. -/
def serialPkt (offset : Offset) (rev : Bool) (s : State) : State :=
  serialFrom 0 Config.pktLen (serialStart offset rev s)

end Sys2Proof.Machine
end

