-- ==== Sys2Proof/Safety.lean ====
section
/-!
DEFINITION. The invariants of the machine, and the comparisons of two states
that differ only in what no one can observe.
-/

namespace Sys2Proof.Machine

/-- What PKTV = 1 promises of the packet buffer and its latch (10_state.md R26, 30_encoding.md R82, R83, R85,
R87): the command byte, the address bytes of OFF, the checksum, and an offset a packet can have. -/
structure PacketOk (s : State) : Prop where
  command : Memory.read s.pkt 0 = Config.cmdOpcode
  address : Memory.read s.pkt 1 ++ Memory.read s.pkt 2 ++ Memory.read s.pkt 3 = s.off
  checksum : Memory.read s.pkt 260 = accumulate (Memory.slice s.pkt 1 259)
  aligned : s.off.toNat % Config.chunk = 0
  inImage : s.off.toNat + Config.chunk ≤ Config.romMax

/-- The invariant of the block: both memories canonical and in their space (20_memory.md R50), the session's
image a ROM image (10_state.md R28), and PKTV telling the truth (R26). -/
structure BlockInv (s : State) : Prop where
  pktWf : Memory.wf s.pkt
  pktBelow : Memory.below s.pkt Config.pktLen
  romWf : s.rom.wf
  romValid : s.rom.valid
  packet : s.pktv = true → PacketOk s

/-- While packet `i` of the session is in flight, the host holds it and PKTV = 1, the buffer is that packet, so that
a resend is of the same 261 bytes (45_host_environment.md R214, 70_reset_and_hazards.md R277). -/
def InFlight (i : Nat) (s : State) : Prop :=
  s.pktv = true → s.host.packetHeld = true →
    ∃ p, buildPacket s.rom (256 * i : Nat) s.host.reverseBits = .ok p ∧ s.pkt = Memory.ofBytes p

/-- The invariant of the transfer state machine: the transport is held from Sending on until the release, and in
Closing but for a session that was cancelled or met an error of the block in Opening (45_host_environment.md R205,
R213, R220, R222), a packet index is one of the image's (R210), the packet in the buffer is that index's (R214), and
a packet is never resent more often than the limit allows (R212). -/
def HostInv (s : State) : Prop :=
  s.host.resends ≤ s.host.params.maxResends ∧
  match s.host.phase with
  | .idle => s.host.transportOpen = false
  | .opening => s.host.transportOpen = false
  | .sending i => s.host.transportOpen = true ∧ i < s.rom.len / Config.chunk ∧ InFlight i s
  | .awaitingAck i => s.host.transportOpen = true ∧ i < s.rom.len / Config.chunk ∧ InFlight i s
  | .retrying i => s.host.transportOpen = true ∧ i < s.rom.len / Config.chunk ∧ InFlight i s
  | .closing r => s.host.transportOpen = true ∨ r = .failure .cancelled ∨ r = .failure .argumentError
  | .closed _ => s.host.transportOpen = false

/-- The conditions under which PKT executes normally: the session's image is a ROM image (10_state.md R28), the
offset is a multiple of 256 and the chunk lies in the image (43_packet_formatter.md R171). -/
abbrev PktRuns (s : State) (offset : Offset) : Prop :=
  s.rom.valid ∧ offset.toNat % 256 = 0 ∧ offset.toNat + 256 ≤ s.rom.len

/-- Two outcomes of the same kind whose next states are related. -/
def SameOutcome (R : State → State → Prop) :
    Host.Outcome State Fault Refusal → Host.Outcome State Fault Refusal → Prop
  | .next s, .next t => R s t
  | .fault a, .fault b => a = b
  | .refused a, .refused b => a = b
  | _, _ => False

/-- The states agree in everything but ACC, OFF and REVEN, which no operation reads (10_state.md R23 to
R25). -/
def AgreeButLatches (s t : State) : Prop :=
  (s.setAcc t.acc).setLatch t.off t.reven = t

/-- The states agree in everything, but for the bytes of PKT while PKTV = 0, which nothing may read
(10_state.md R22). -/
def AgreeButUnreadable (s t : State) : Prop :=
  s = t ∨ (s.pktv = false ∧ s.setPkt t.pkt = t)

end Sys2Proof.Machine
end

