-- ==== Sys2Proof/Certificates/Slice0/Obligations.lean ====
section
/-!
DEFINITION. The statements about the block and its host, from the numbered rules of spec/.
-/

open Sys2Proof Sys2Proof.Machine

/-! ### Reset -/

/-- 10_state.md R35 (decision D12: the document gives no reset): after reset PKTV, ACC, OFF and REVEN are 0, PKT is
unreadable and LUT holds its table. -/
def Obligations.StateAfterReset : Prop :=
  State.reset.pktv = false ∧ State.reset.acc = 0x00#8 ∧ State.reset.off = 0x000000#24 ∧
  State.reset.reven = false ∧
  (∀ k, runReadOut k State.reset = .refused .packetUnreadable) ∧
  (∀ b : Byte, ∀ i < 8, ∃ r, memRead .lut b.toNat State.reset = some r ∧
    r.getLsbD i = b.getLsbD (7 - i))

/-- 70_reset_and_hazards.md R271 (decision D12, log 11): the reset input, in any state. The ROM image, the host (its
reverseBits with it) and the line stay; no response is owed. -/
def Obligations.ResetInputReachesResetState : Prop :=
  ∀ (s : State) (rest : List Input), s.inputs = .reset :: rest →
    ∃ t, step s = .next t ∧
      t.pktv = false ∧ (∀ k, runReadOut k t = .refused .packetUnreadable) ∧
      t.acc = 0x00#8 ∧ t.off = 0x000000#24 ∧ t.reven = false ∧ t.rsp = none ∧
      (∀ b : Byte, ∀ i < 8, ∃ r, memRead .lut b.toNat t = some r ∧ r.getLsbD i = b.getLsbD (7 - i)) ∧
      t.rom = s.rom ∧ t.host = s.host ∧ t.line = s.line ∧ t.inputs = rest

/-! ### ENC -/

/-- 40_address_encoder.md R111, R112: ENC at the functional level, over the integers: its two checks with their
constraint numbers and class, nothing written on failure, the three bytes on success. -/
def Obligations.EncFunctionalLevel : Prop :=
  ∀ (offset : Int) (s : State),
    (offset < 0 → encodeAddress offset = .error .encBelowZero ∧
      runEnc offset s = s.setRsp (some (.error .encBelowZero)) ∧
      Failure.status .encBelowZero = .outOfRange ∧ Failure.cons .encBelowZero = 1#2 ∧
      Failure.errorClass .encBelowZero = .argumentError) ∧
    (1048576 < offset → encodeAddress offset = .error .encAboveMax ∧
      runEnc offset s = s.setRsp (some (.error .encAboveMax)) ∧
      Failure.status .encAboveMax = .outOfRange ∧ Failure.cons .encAboveMax = 2#2 ∧
      Failure.errorClass .encAboveMax = .argumentError) ∧
    (0 ≤ offset → offset ≤ 1048576 → ∃ m d l : Byte, encodeAddress offset = .ok (m, d, l) ∧
      (m.toNat : Int) = offset / 65536 % 256 ∧ (d.toNat : Int) = offset / 256 % 256 ∧
      (l.toNat : Int) = offset % 256 ∧
      offset = (m.toNat : Int) * 65536 + (d.toNat : Int) * 256 + (l.toNat : Int))

/-- 40_address_encoder.md R113: ENC writes no state but its response, which depends on the offset alone. -/
def Obligations.EncIsPure : Prop :=
  ∀ offset : Int, ∃ r : Response, ∀ s : State, runEnc offset s = s.setRsp (some r)

/-- 40_address_encoder.md R115 (decisions D3, D4, D5): the command ENC. The whole next state is given, so nothing but
the response changes. On success the result is the operand, bit for bit, which is `{msb, mid, lsb}`. -/
def Obligations.EncCommandAnswers : Prop :=
  ∀ (offset : Offset) (s : State),
    (offset.toNat ≤ 1048576 → ∃ m d l : Byte,
      encodeAddress (offset.toNat : Int) = .ok (m, d, l) ∧ m ++ d ++ l = offset ∧
      exec (.enc offset) s = .next (s.setRsp (some (.ok (m ++ d ++ l))))) ∧
    (1048576 < offset.toNat →
      exec (.enc offset) s = .next (s.setRsp (some (.error .encAboveMax))) ∧
      (Response.error .encAboveMax).status = .outOfRange ∧
      (Response.error .encAboveMax).cons = 2#2 ∧ (Response.error .encAboveMax).result = 0#24)

/-- 40_address_encoder.md R114 (decision D16 reads "naive increment-based" so): ENC agrees with the counter incremented
once per byte and with the counter stepped once per packet, up to the boundary. -/
def Obligations.EncAgreesWithIncrementingCounters : Prop :=
  (∀ o : Nat, o ≤ 1048576 → encodeAddress o = .ok (counterAfter o)) ∧
  (∀ i : Nat, i ≤ 4096 → encodeAddress (256 * i : Nat) = .ok (packetCounterAfter i)) ∧
  counterAfter 1048576 = (0x10#8, 0x00#8, 0x00#8)

/-! ### REV -/

/-- 41_bit_reversal.md R131, 20_memory.md R52: REV answers the table's entry, which swaps bit i with bit 7 - i, in
every state and for every byte, and changes nothing but the response. -/
def Obligations.RevCommandAnswers : Prop :=
  ∀ (b : Byte) (s : State), ∃ r : Byte,
    memRead .lut b.toNat s = some r ∧ (∀ i < 8, r.getLsbD i = b.getLsbD (7 - i)) ∧
    exec (.rev b) s = .next (s.setRsp (some (.ok (0#16 ++ r))))

/-- 41_bit_reversal.md R135 (decisions D4, D5, D10): the port binding of REV, for every command word with `op` = 0b01. -/
def Obligations.RevPortBinding : Prop :=
  ∀ (w : CommandWord) (s : State), w.extractLsb' 34 2 = 0b01#2 →
    (w.extractLsb' 8 26 = 0#26 →
      runCode (.word w) s = .next (s.setRsp (some (.ok (0#16 ++ reverse (w.extractLsb' 0 8)))))) ∧
    (w.extractLsb' 8 26 ≠ 0#26 →
      runCode (.word w) s = .next (s.setRsp (some (.error .illegalCommand))))

/-- 41_bit_reversal.md R133 (marked derived there): the table is an involution and a bijection, with its listed fixed
points, set bits kept, its odd entries and its sum. -/
def Obligations.LutProperties : Prop :=
  (∀ b : Byte, reverse (reverse b) = b) ∧ reverse 0x0F#8 = 0xF0#8 ∧
  (∀ r : Byte, ∃ b, reverse b = r ∧ ∀ c, reverse c = r → c = b) ∧
  (∀ b : Byte, reverse b = b ↔ b ∈ [0x00#8, 0x18#8, 0x24#8, 0x3C#8, 0x42#8, 0x5A#8, 0x66#8, 0x7E#8,
    0x81#8, 0x99#8, 0xA5#8, 0xBD#8, 0xC3#8, 0xDB#8, 0xE7#8, 0xFF#8]) ∧
  (∀ b : Byte, ((List.range 8).filter fun i => (reverse b).getLsbD i).length =
    ((List.range 8).filter fun i => b.getLsbD i).length) ∧
  (∀ b : Byte, (reverse b).toNat % 2 = 1 ↔ 128 ≤ b.toNat) ∧
  (lutTable.map BitVec.toNat).sum = 32640 ∧ lutTable.length = 256

/-! ### SUM -/

/-- 42_checksum.md R152: SUM at the functional level, over any byte sequence and any integers: the checks in order with
their constraint numbers, nothing written on failure, and the sum modulo 256 of the covered bytes in ACC and in the
result. -/
def Obligations.SumFunctionalLevel : Prop :=
  ∀ (buffer : Image) (offset count : Int) (s : State),
    runSum buffer offset count s =
      (if offset < 0 then s.setRsp (some (.error .sumOffsetNegative))
       else if count ≤ 0 then s.setRsp (some (.error .sumCountNotPositive))
       else if (buffer.len : Int) < offset + count then s.setRsp (some (.error .sumPastEnd))
       else
        let total := ((List.range count.toNat).map fun k =>
          (Memory.read buffer.mem (offset.toNat + k)).toNat).sum
        (s.setAcc (BitVec.ofNat 8 (total % 256))).setRsp
          (some (.ok (BitVec.ofNat 24 (total % 256))))) ∧
    Failure.status .sumOffsetNegative = .invalidArgument ∧ Failure.cons .sumOffsetNegative = 1#2 ∧
    Failure.status .sumCountNotPositive = .invalidArgument ∧
    Failure.cons .sumCountNotPositive = 2#2 ∧
    Failure.status .sumPastEnd = .invalidArgument ∧ Failure.cons .sumPastEnd = 3#2

/-- 42_checksum.md R157, R158 (decisions D3 to D5, D8, D9, D23): the command SUM while a packet is valid and the range
lies in the buffer: it completes, ACC and the result are the sum, and nothing else changes. -/
def Obligations.SumCommandCompletes : Prop :=
  ∀ (offset : Offset) (count : BitVec 9) (s : State),
    s.pktv = true → 0 < count.toNat → offset.toNat + count.toNat ≤ 261 →
    let total := ((List.range count.toNat).map fun k =>
      (Memory.read s.pkt (offset.toNat + k)).toNat).sum
    exec (.sum offset count) s =
      .next ((s.setAcc (BitVec.ofNat 8 (total % 256))).setRsp
        (some (.ok (BitVec.ofNat 24 (total % 256)))))

/-- 42_checksum.md R157 (decisions D6, D9): where the command SUM fails, in the order of the checks; nothing but the
response changes. -/
def Obligations.SumCommandFails : Prop :=
  ∀ (offset : Offset) (count : BitVec 9) (s : State),
    (s.pktv = false → exec (.sum offset count) s = .next (s.setRsp (some (.error .noPacket)))) ∧
    (s.pktv = true → count.toNat = 0 →
      exec (.sum offset count) s = .next (s.setRsp (some (.error .sumCountNotPositive)))) ∧
    (s.pktv = true → 0 < count.toNat → 261 < offset.toNat + count.toNat →
      exec (.sum offset count) s = .next (s.setRsp (some (.error .sumPastEnd))))

/-- 42_checksum.md R153: the addition wraps; reducing after every addition, as SUM does, or once at the end is the
same. No carry or other flag is kept: ACC and the response are all that SUM writes. -/
def Obligations.ChecksumIsThePlainSum : Prop :=
  (∀ bytes : List Byte, (accumulate bytes).toNat = (bytes.map BitVec.toNat).sum % 256) ∧
  (∀ (buffer : Image) (offset count : Nat), 0 < count → offset + count ≤ buffer.len →
    checksum buffer offset count =
      .ok (accumulate ((List.range count).map fun k => Memory.read buffer.mem (offset + k)))) ∧
  ∀ (buffer : Image) (offset count : Int) (s : State),
    ∃ acc r, runSum buffer offset count s = (s.setAcc acc).setRsp (some r)

/-- 42_checksum.md R155 (marked derived there): order independence, one byte, adjacent ranges, 256 equal bytes, every
value once, and REV over a range that holds every value equally often. -/
def Obligations.ChecksumProperties : Prop :=
  (∀ l₁ l₂ : List Byte, l₁.Perm l₂ → accumulate l₁ = accumulate l₂) ∧
  (∀ (buffer : Image) (offset : Nat), offset < buffer.len →
    checksum buffer offset 1 = .ok (Memory.read buffer.mem offset)) ∧
  (∀ l₁ l₂ : List Byte, accumulate (l₁ ++ l₂) = accumulate l₁ + accumulate l₂) ∧
  (∀ v : Byte, accumulate (List.replicate 256 v) = 0x00#8) ∧
  (∀ l : List Byte, (∀ v : Byte, l.count v = 1) → accumulate l = 0x80#8) ∧
  (∀ l : List Byte, (∀ v w : Byte, l.count v = l.count w) →
    accumulate (l.map reverse) = accumulate l)

/-! ### PKT -/

/-- 43_packet_formatter.md R172 to R176, R178, R179 (decisions D3, D4, D5, D7, D23), 20_memory.md R54, 30_encoding.md
R82, R85: PKT completes; what each of the 261 bytes is, and every other piece of state. -/
def Obligations.PktCommandBuildsThePacket : Prop :=
  ∀ (offset : Offset) (rev : Bool) (s : State), PktRuns s offset →
    ∃ t, exec (.pkt offset rev) s = .next t ∧
      Memory.read t.pkt 0 = 0x5A#8 ∧
      Memory.read t.pkt 1 = offset.extractLsb' 16 8 ∧
      Memory.read t.pkt 2 = offset.extractLsb' 8 8 ∧
      Memory.read t.pkt 3 = offset.extractLsb' 0 8 ∧
      (∀ j < 256, Memory.read t.pkt (4 + j) =
        if rev then reverse (Memory.read s.rom.mem (offset.toNat + j))
        else Memory.read s.rom.mem (offset.toNat + j)) ∧
      (Memory.read t.pkt 260).toNat =
        ((List.range 259).map fun k => (Memory.read t.pkt (1 + k)).toNat).sum % 256 ∧
      t.pktv = true ∧ t.acc = Memory.read t.pkt 260 ∧ t.off = offset ∧ t.reven = rev ∧
      t.rsp = some (.ok 0#24) ∧
      t.rom = s.rom ∧ t.line = s.line ∧ t.host = s.host ∧ t.inputs = s.inputs ∧
      (∀ sp a, (sp = .pkt → 261 ≤ a) → memRead sp a t = memRead sp a s)

/-- 43_packet_formatter.md R172: PKT at the functional level, over the integers: the checks in order, each failure
clearing PKTV and writing nothing else, and on success the packet and the state written. -/
def Obligations.PktFunctionalLevel : Prop :=
  ∀ (offset : Int) (rev : Bool) (s : State), s.rom.valid →
    (offset % 256 ≠ 0 →
      runPkt offset rev s = .next ((s.setPktv false).setRsp (some (.error .pktMisaligned)))) ∧
    (offset % 256 = 0 → (s.rom.len : Int) < offset + 256 →
      runPkt offset rev s = .next ((s.setPktv false).setRsp (some (.error .pktPastEnd)))) ∧
    (offset % 256 = 0 → offset + 256 ≤ s.rom.len → offset < 0 →
      runPkt offset rev s = .next ((s.setPktv false).setRsp (some (.error .pktOffsetNegative)))) ∧
    (offset % 256 = 0 → offset + 256 ≤ s.rom.len → 0 ≤ offset →
      ∃ (p : List Byte) (m d l : Byte), p.length = 261 ∧ encodeAddress offset = .ok (m, d, l) ∧
        p.take 4 = [0x5A#8, m, d, l] ∧
        (∀ j < 256, p[4 + j]? = some (if rev then reverse (Memory.read s.rom.mem (offset.toNat + j))
          else Memory.read s.rom.mem (offset.toNat + j))) ∧
        checksum (Image.ofBytes p) 1 259 = .ok (p.getD 260 0#8) ∧
        runPkt offset rev s = .next (((((s.setPkt (Memory.ofBytes p)).setAcc (p.getD 260 0#8)).setLatch
          (BitVec.ofInt 24 offset) rev).setPktv true).setRsp (some (.ok 0#24)))) ∧
    Failure.status .pktMisaligned = .outOfRange ∧ Failure.cons .pktMisaligned = 1#2 ∧
    Failure.status .pktPastEnd = .outOfRange ∧ Failure.cons .pktPastEnd = 2#2 ∧
    Failure.status .pktOffsetNegative = .outOfRange ∧ Failure.cons .pktOffsetNegative = 3#2

/-- 43_packet_formatter.md R185 (decision D8): a failed PKT command clears PKTV, writes nothing else, and leaves the old
packet unreadable. -/
def Obligations.FailedPktClearsOnlyPktv : Prop :=
  ∀ (offset : Offset) (rev : Bool) (s : State), s.rom.valid →
    ¬ (offset.toNat % 256 = 0 ∧ offset.toNat + 256 ≤ s.rom.len) →
    ∃ f, (f = .pktMisaligned ∧ offset.toNat % 256 ≠ 0 ∨
        f = .pktPastEnd ∧ offset.toNat % 256 = 0 ∧ s.rom.len < offset.toNat + 256) ∧
      exec (.pkt offset rev) s = .next ((s.setPktv false).setRsp (some (.error f))) ∧
      ∀ k, runReadOut k ((s.setPktv false).setRsp (some (.error f))) = .refused .packetUnreadable

/-- 70_reset_and_hazards.md R275, log 13: a session whose image breaks the premise of LOAD has no meaning. PKT
stops by name; ENC and REV, which need no image, do not. -/
def Obligations.PktStopsOnABrokenImage : Prop :=
  ∀ (offset : Offset) (rev : Bool) (s : State), s.rom.valid = false →
    exec (.pkt offset rev) s = .refused .romPremise

/-- 43_packet_formatter.md R177: the packet is a function of the chunk, the offset and the flag; it does not depend
on earlier packets, ACC, or the rest of the image; it has 261 bytes, and building it does no I/O. -/
def Obligations.PacketDependsOnItsChunkOnly : Prop :=
  ∀ (offset : Offset) (rev : Bool) (s s' : State), PktRuns s offset → PktRuns s' offset →
    (∀ j < 256, Memory.read s.rom.mem (offset.toNat + j) =
      Memory.read s'.rom.mem (offset.toNat + j)) →
    ∃ t t', exec (.pkt offset rev) s = .next t ∧ exec (.pkt offset rev) s' = .next t' ∧
      t.pkt = t'.pkt ∧ (pktBytes t).length = 261 ∧ t.line = s.line ∧ t.host = s.host

/-- 30_encoding.md R87 (marked derived there): the values the fields of a built packet can take. -/
def Obligations.BuiltPacketFieldRanges : Prop :=
  ∀ (offset : Offset) (rev : Bool) (s t : State), PktRuns s offset →
    exec (.pkt offset rev) s = .next t →
    (Memory.read t.pkt 1).toNat ≤ 0x0F ∧ Memory.read t.pkt 3 = 0x00#8 ∧ t.off.toNat ≤ 1048320

/-- 43_packet_formatter.md R183 (i) (marked derived there): a chunk of 256 equal bytes adds nothing to the checksum,
reversed or not, so the checksum is the sum of the address bytes. -/
def Obligations.ConstantChunkChecksum : Prop :=
  ∀ (offset : Offset) (rev : Bool) (v : Byte) (s t : State), PktRuns s offset →
    (∀ j < 256, Memory.read s.rom.mem (offset.toNat + j) = v) →
    exec (.pkt offset rev) s = .next t →
    Memory.read t.pkt 260 = Memory.read t.pkt 1 + Memory.read t.pkt 2 + Memory.read t.pkt 3

/-- 43_packet_formatter.md R183 (j) (marked derived there): on a chunk of self-reversed bytes the flag does not change
the packet. -/
def Obligations.SelfReversedChunkIgnoresTheFlag : Prop :=
  ∀ (offset : Offset) (s t t' : State), PktRuns s offset →
    (∀ j < 256, reverse (Memory.read s.rom.mem (offset.toNat + j)) =
      Memory.read s.rom.mem (offset.toNat + j)) →
    exec (.pkt offset false) s = .next t → exec (.pkt offset true) s = .next t' → t.pkt = t'.pkt

/-- 43_packet_formatter.md R176, 42_checksum.md R157 (decision D9): after a PKT that built its packet, the command
`SUM 1, 259` answers `PKT[260]`. -/
def Obligations.SumOfTheWholePacketIsItsChecksum : Prop :=
  ∀ (offset : Offset) (rev : Bool) (s t : State), PktRuns s offset →
    exec (.pkt offset rev) s = .next t →
    exec (.sum 1#24 259#9) t =
      .next ((t.setAcc (Memory.read t.pkt 260)).setRsp (some (.ok (0#16 ++ Memory.read t.pkt 260))))

/-- 43_packet_formatter.md R180, R181 (decision D14): the byte-serial sequence ends with exactly the state of the atomic
rule, and PKTV is 0 from its start until byte 260 completes. -/
def Obligations.SerialSequenceRefinesPkt : Prop :=
  ∀ (offset : Offset) (rev : Bool) (s : State), PktRuns s offset →
    Memory.wf s.pkt → Memory.below s.pkt 261 →
    exec (.pkt offset rev) s = .next ((serialPkt offset rev s).setRsp (some (.ok 0#24))) ∧
    ∀ n ≤ 260, (serialFrom 0 n (serialStart offset rev s)).pktv = false

/-! ### Encoding -/

/-- 30_encoding.md R88 to R90, R81 (decision D4): decoding the code of a well-formed instruction gives it back, every
operand at every value. -/
def Obligations.DecodeOfEncode : Prop :=
  ∀ i : Instr, i.wellFormed = true → decode (encode i) = .ok i

/-- 30_encoding.md R90, R98 (decision D4), and for frames R81, R86 and log 9 (the checksum's value is not part of the
pattern): a code that decodes is the code of the well-formed instruction it decodes to. -/
def Obligations.EncodeOfDecode : Prop :=
  ∀ (c : Code) (i : Instr), decode c = .ok i → i.wellFormed = true ∧ encode i = c

/-- 30_encoding.md R90 (decisions D4, D10): the four rows by match and mask. A word that matches a row is that operation
with the row's operands; a word that matches none is rejected. -/
def Obligations.WordDecodesByItsRow : Prop :=
  ∀ w : CommandWord,
    (w &&& 0xFFF000000#36 = 0x000000000#36 → decodeWord w = .ok (.enc (w.extractLsb' 0 24))) ∧
    (w &&& 0xFFFFFFF00#36 = 0x400000000#36 → decodeWord w = .ok (.rev (w.extractLsb' 0 8))) ∧
    (w &&& 0xE00000000#36 = 0x800000000#36 →
      decodeWord w = .ok (.sum (w.extractLsb' 0 24) (w.extractLsb' 24 9))) ∧
    (w &&& 0xDFF000000#36 = 0xC00000000#36 →
      decodeWord w = .ok (.pkt (w.extractLsb' 0 24) (w.getLsbD 33))) ∧
    (w &&& 0xFFF000000#36 ≠ 0x000000000#36 → w &&& 0xFFFFFFF00#36 ≠ 0x400000000#36 →
      w &&& 0xE00000000#36 ≠ 0x800000000#36 → w &&& 0xDFF000000#36 ≠ 0xC00000000#36 →
      ∃ e, decodeWord w = .error e)

/-- 30_encoding.md R94 (decision D10): the reserved-field violations, and no other words, answer `IllegalCommand`, with
constraint and result 0 and no state written, not even PKTV. R95: a frame that is no 0x5A packet of 261 bytes is
undefined by the source, and running it is refused by name. -/
def Obligations.ReservedFieldsAreIllegal : Prop :=
  (∀ (w : CommandWord) (s : State),
    let op := w.extractLsb' 34 2
    let rev := w.extractLsb' 33 1
    let count := w.extractLsb' 24 9
    let violates := ((op = 0b00#2 ∨ op = 0b01#2) ∧ (rev = 1#1 ∨ count ≠ 0#9)) ∨
      (op = 0b01#2 ∧ w.extractLsb' 8 16 ≠ 0#16) ∨ (op = 0b10#2 ∧ rev = 1#1) ∨
      (op = 0b11#2 ∧ count ≠ 0#9)
    (violates → runCode (.word w) s = .next (s.setRsp (some (.error .illegalCommand)))) ∧
    (¬ violates → ∃ i, decodeWord w = .ok i ∧ runCode (.word w) s = exec i s) ∧
    (Response.error .illegalCommand).pack = 4#3 ++ 0#2 ++ 0#24) ∧
  ∀ (bytes : List Byte) (s : State), ¬ (bytes.length = 261 ∧ bytes.head? = some 0x5A#8) →
    runCode (.frame bytes) s = .refused .undefinedPacket

/-- 95_test_vectors.md, 30_encoding.md R90 (decision D4): words of each family, written from the encodings, decode to the
instructions they stand for, and so does a packet. -/
def Obligations.ListedCodesDecode : Prop :=
  decodeWord 0x000012300#36 = .ok (.enc 0x012300#24) ∧
  decodeWord 0x400000012#36 = .ok (.rev 0x12#8) ∧
  decodeWord 0x903000001#36 = .ok (.sum 1#24 259#9) ∧
  decodeWord 0xE00000100#36 = .ok (.pkt 256#24 true) ∧
  decodeWord 0xC000FFF00#36 = .ok (.pkt 0x0FFF00#24 false) ∧
  decodeFrame ([0x5A#8, 0x01#8, 0x23#8, 0x00#8] ++ List.replicate 256 0x0F#8 ++ [0x24#8]) =
    .ok (.packet5A 0x012300#24 (List.replicate 256 0x0F#8) 0x24#8)

/-! ### PACKET_5A -/

/-- 30_encoding.md R81, 20_memory.md R55 (decision D11, log 7): the packet is sent as it is, byte 0 first; the block is
unchanged. -/
def Obligations.WirePacketIsSentAsItIs : Prop :=
  ∀ (addr : Offset) (payload : List Byte) (c : Byte) (s : State), payload.length = 256 →
    ∃ bytes : List Byte, bytes = [0x5A#8, addr.extractLsb' 16 8, addr.extractLsb' 8 8,
        addr.extractLsb' 0 8] ++ payload ++ [c] ∧ bytes.length = 261 ∧
      exec (.packet5A addr payload c) s = .next (s.setLine (s.line ++ bytes))

/-- 30_encoding.md R81, R86 (log 9): what PKT leaves in the buffer is a packet in the wire format, with the offset as
its address, the chunk as its payload and the last byte as its checksum. -/
def Obligations.BuiltPacketIsAWirePacket : Prop :=
  ∀ (offset : Offset) (rev : Bool) (s t : State), PktRuns s offset →
    exec (.pkt offset rev) s = .next t →
    decode (.frame (pktBytes t)) = .ok (.packet5A offset
      ((List.range 256).map fun j =>
        if rev then reverse (Memory.read s.rom.mem (offset.toNat + j))
        else Memory.read s.rom.mem (offset.toNat + j))
      (Memory.read t.pkt 260))

/-! ### Errors and the command port -/

/-- 30_encoding.md R91 to R93 (decisions D5, D6, D9, D10): the layout and the numbers of the responses, the status and
the constraint of each of the ten failures, no result with an error. -/
def Obligations.ResponseCodes : Prop :=
  (∀ r : Offset, (Response.ok r).pack = 0#3 ++ 0#2 ++ r) ∧
  (∀ f : Failure, (Response.error f).pack = f.status.code ++ f.cons ++ 0#24 ∧ f.status ≠ .ok) ∧
  Status.code .ok = 0#3 ∧ Status.code .outOfRange = 1#3 ∧ Status.code .invalidArgument = 2#3 ∧
  Status.code .noPacket = 3#3 ∧ Status.code .illegalCommand = 4#3 ∧
  Failure.status .encBelowZero = .outOfRange ∧ Failure.cons .encBelowZero = 1#2 ∧
  Failure.status .encAboveMax = .outOfRange ∧ Failure.cons .encAboveMax = 2#2 ∧
  Failure.status .sumOffsetNegative = .invalidArgument ∧ Failure.cons .sumOffsetNegative = 1#2 ∧
  Failure.status .sumCountNotPositive = .invalidArgument ∧
  Failure.cons .sumCountNotPositive = 2#2 ∧
  Failure.status .sumPastEnd = .invalidArgument ∧ Failure.cons .sumPastEnd = 3#2 ∧
  Failure.status .pktMisaligned = .outOfRange ∧ Failure.cons .pktMisaligned = 1#2 ∧
  Failure.status .pktPastEnd = .outOfRange ∧ Failure.cons .pktPastEnd = 2#2 ∧
  Failure.status .pktOffsetNegative = .outOfRange ∧ Failure.cons .pktOffsetNegative = 3#2 ∧
  Failure.status .noPacket = .noPacket ∧ Failure.cons .noPacket = 0#2 ∧
  Failure.status .illegalCommand = .illegalCommand ∧ Failure.cons .illegalCommand = 0#2

/-- 60_exceptions.md R243 (marked derived there): every command word, in a session with a ROM image, ends with one
response; there is no fault, no trap and no hang. -/
def Obligations.EveryCommandWordIsAnswered : Prop :=
  ∀ (w : CommandWord) (s : State), s.rom.valid →
    ∃ t r, runCode (.word w) s = .next t ∧ t.rsp = some r

/-- 60_exceptions.md R246 (decision D8): an error writes no state, with one exception: a failed PKT clears PKTV. -/
def Obligations.ErrorsWriteNoState : Prop :=
  ∀ (w : CommandWord) (s t : State) (f : Failure), runCode (.word w) s = .next t →
    t.rsp = some (.error f) →
    (t = s.setRsp (some (.error f)) ∧ ∀ o r, decodeWord w ≠ .ok (.pkt o r)) ∨
    (t = (s.setPktv false).setRsp (some (.error f)) ∧ ∃ o r, decodeWord w = .ok (.pkt o r))

/-- 60_exceptions.md R248: an error response carries no usable result: the status is not `OK`, the result field is
zero and, for PKT, PKTV is 0. -/
def Obligations.ErrorsCarryNoResult : Prop :=
  ∀ (w : CommandWord) (s t : State) (f : Failure), runCode (.word w) s = .next t →
    t.rsp = some (.error f) →
    (Response.error f).status ≠ .ok ∧ (Response.error f).pack.extractLsb' 0 24 = 0#24 ∧
    ((∃ o r, decodeWord w = .ok (.pkt o r)) → t.pktv = false)

/-- 60_exceptions.md R247, 10_state.md R33 (decision D5): an error is not sticky: what a command does is
independent of the response before it. -/
def Obligations.ErrorsAreNotSticky : Prop :=
  ∀ (w : CommandWord) (s : State) (r : Option Response),
    runCode (.word w) (s.setRsp r) = runCode (.word w) s

/-- 20_memory.md R59 (decision D1): every operation is idempotent. -/
def Obligations.CommandsAreIdempotent : Prop :=
  ∀ (w : CommandWord) (s t : State), runCode (.word w) s = .next t → runCode (.word w) t = .next t

/-- 10_state.md R36 (marked derived there), R20, for the line log 7 and for the response log 4: which operation may write
which element; none writes the ROM image, the host or the inputs. -/
def Obligations.OnlyListedOperationsWrite : Prop :=
  ∀ (i : Instr) (s t : State), exec i s = .next t →
    (t.rom = s.rom ∧ t.host = s.host ∧ t.inputs = s.inputs) ∧
    ((∀ o r, i ≠ .pkt o r) →
      t.pkt = s.pkt ∧ t.pktv = s.pktv ∧ t.off = s.off ∧ t.reven = s.reven) ∧
    ((∀ o r, i ≠ .pkt o r) → (∀ o n, i ≠ .sum o n) → t.acc = s.acc) ∧
    ((∀ a p c, i ≠ .packet5A a p c) → t.line = s.line) ∧
    ((∃ a p c, i = .packet5A a p c) → t.rsp = s.rsp)

/-! ### Steps -/

/-- 30_encoding.md R98, 10_state.md R31, 45_host_environment.md R218, R222, R225, 70_reset_and_hazards.md R277
(decisions D4, D19), logs 1, 7, 14: when the next input is a code that decodes to an instruction, the step is exec of
that instruction in the state with the input taken off the list. While a session runs, a packet from elsewhere is
refused (log 7); after every other instruction the host takes note of the packet it now holds (log 14) and takes the
response. -/
def Obligations.StepRunsTheDecodedInstruction : Prop :=
  ∀ (s : State) (c : Code) (i : Instr) (rest : List Input), s.inputs = .code c :: rest →
    decode c = .ok i →
    (s.host.phase.active = false → step s = exec i (s.setInputs rest)) ∧
    (s.host.phase.active = true →
      ((∃ a p x, i = .packet5A a p x) → step s = .refused .transportOwned) ∧
      ((∀ a p x, i ≠ .packet5A a p x) →
        (∀ t, exec i (s.setInputs rest) = .next t → step s = .next (takeResponse (notePacket i t))) ∧
        (∀ r, exec i (s.setInputs rest) = .refused r → step s = .refused r))) ∧
    (∀ t : State,
      ((∀ o r, i ≠ .pkt o r) → notePacket i t = t) ∧
      (∀ o r, i = .pkt o r → ∃ b, notePacket i t = t.setHost { t.host with packetHeld := b } ∧
        (b = true ↔ ∃ k, t.host.phase.packetIndex = some k ∧ o = BitVec.ofNat 24 (256 * k) ∧
          r = t.host.reverseBits))) ∧
    (∀ t : State, (∀ f, t.rsp ≠ some (.error f)) → takeResponse t = t) ∧
    (∀ (t : State) (f : Failure), t.rsp = some (.error f) →
      takeResponse t = t.setHost { t.host with phase := t.host.phase.abort f.errorClass })

/-- 70_reset_and_hazards.md R276: the ROM image changes by a LOAD outside a session and by nothing else. -/
def Obligations.RomImageIsConstant : Prop :=
  ∀ s t : State, step s = .next t →
    t.rom = s.rom ∨
    ∃ file rest, s.inputs = .load file :: rest ∧ s.host.phase.active = false ∧
      loadImage file = .ok t.rom

/-- 10_state.md R23 to R25, R34 (decision D7): no step depends on what an earlier operation left in ACC, OFF or REVEN. -/
def Obligations.LatchesAreUnobservable : Prop :=
  ∀ s s' : State, AgreeButLatches s s' → SameOutcome AgreeButLatches (step s) (step s')

/-- 10_state.md R22, 70_reset_and_hazards.md R278 (decisions D8, D11): while PKTV = 0 no step depends on the bytes of
PKT. -/
def Obligations.UnreadablePacketIsUnobservable : Prop :=
  ∀ s s' : State, AgreeButUnreadable s s' → SameOutcome AgreeButUnreadable (step s) (step s')

/-- 10_state.md R26, R28 (decisions D8, D18), 20_memory.md R50, 30_encoding.md R85, logs 3, 8: every step keeps the
block's invariant: canonical memories in their spaces, a ROM image, and while PKTV = 1 a complete packet with its
checksum and OFF's address. -/
def Obligations.StepKeepsBlockInv : Prop :=
  ∀ s t : State, BlockInv s → step s = .next t → BlockInv t

/-- 45_host_environment.md R205, R210, R212 to R214, R220, R222, 70_reset_and_hazards.md R277, logs 14, 17, 19: every
step keeps the invariant of the transfer state machine, the packet in flight with it. -/
def Obligations.StepKeepsHostInv : Prop :=
  ∀ s t : State, HostInv s → step s = .next t → HostInv t

/-- 10_state.md R35 (decision D12), logs 3, 5, 6: the state after reset meets both invariants. -/
def Obligations.ResetMeetsTheInvariants : Prop :=
  BlockInv State.reset ∧ HostInv State.reset

/-! ### Memory spaces and read-out -/

/-- 20_memory.md R50 (marked derived there): each space holds its addresses and no other. -/
def Obligations.SpacesHoldTheirAddresses : Prop :=
  ∀ (s : State) (a : Nat),
    ((memRead .romimg a s).isSome ↔ a < s.rom.len) ∧ ((memRead .lut a s).isSome ↔ a < 256) ∧
    ((memRead .pkt a s).isSome ↔ a < 261)

/-- 43_packet_formatter.md R182, 10_state.md R22 (decisions D8, D11), log 24: the host's read-out of one byte: refused
while PKTV = 0, a fault outside the buffer (the model's choice, log 24), and otherwise the byte with nothing of the
block changed. -/
def Obligations.ReadOut : Prop :=
  ∀ (s : State) (k : Nat) (rest : List Input), s.inputs = .readOut k :: rest →
    (s.pktv = false → step s = .refused .packetUnreadable) ∧
    (s.pktv = true → 261 ≤ k → step s = .fault (.addressOutsideSpace .pkt k)) ∧
    (s.pktv = true → k < 261 → step s = .next ((s.setInputs rest).setHost
      { s.host with readData := some (Memory.read s.pkt k) }))

/-! ### The host -/

/-- 45_host_environment.md R202: what LOAD accepts becomes an image with the file's bytes unchanged. -/
def Obligations.LoadKeepsTheBytes : Prop :=
  ∀ (file : List Byte) (im : Image), loadImage file = .ok im →
    im.len = file.length ∧ im.wf ∧ ∀ a < file.length, file[a]? = some (Memory.read im.mem a)

/-- 45_host_environment.md R203: an error of LOAD has no side effect but the error itself, and it opens no
transport; a FLASH begins only on an image that meets the premise. -/
def Obligations.ValidationErrorsHaveNoSideEffects : Prop :=
  ∀ (s : State) (rest : List Input),
    (∀ file e, s.inputs = .load file :: rest → s.host.phase.active = false →
      loadImage file = .error e → e.errorClass = .validationError ∧
      step s = .next ((s.setInputs rest).setHost { s.host with loadError := some e })) ∧
    (∀ rev ps t, s.inputs = .flash rev ps :: rest → step s = .next t →
      s.rom.len % 256 = 0 ∧ s.rom.len ≤ 1048576)

/-- 45_host_environment.md R201, R225 (decisions D6, D18, log 18): LOAD's checks in order, and a good file outside
a session as the new image; during a session a LOAD has no transition. -/
def Obligations.LoadStep : Prop :=
  ∀ (s : State) (file : List Byte) (rest : List Input), s.inputs = .load file :: rest →
    (s.host.phase.active = true → step s = .refused .sessionActive) ∧
    (1048576 < file.length → loadImage file = .error .tooLarge) ∧
    (file.length ≤ 1048576 → file.length % 256 ≠ 0 → loadImage file = .error .misalignedImage) ∧
    (s.host.phase.active = false → file.length ≤ 1048576 → file.length % 256 = 0 →
      ∃ im, loadImage file = .ok im ∧ im.valid ∧
        step s = .next (((s.setInputs rest).setRom im).setHost { s.host with loadError := none }))

/-- 45_host_environment.md R223 (marked derived there): no PKT command of a FLASH fails. -/
def Obligations.FlashPacketsNeverFail : Prop :=
  ∀ (s : State) (i : Nat) (rev : Bool), s.rom.valid → i < s.rom.len / 256 →
    ∃ t, runCode (packetCommand i rev) s = .next t ∧ t.rsp = some (.ok 0#24) ∧ t.pktv = true ∧
      t.off.toNat = 256 * i ∧ t.reven = rev

/-- 45_host_environment.md R209, logs 17, 18: Idle → Opening by FLASH; failure to open is `TransportError`, straight to
Closed (log 17), and it is terminal: no event of the session changes anything there (log 18). -/
def Obligations.OpeningTransitions : Prop :=
  ∀ (s : State) (rest : List Input),
    (∀ rev ps, s.inputs = .flash rev ps :: rest → s.host.phase = .idle → 0 < ps.retryLimit →
      s.rom.valid → ∃ t, step s = .next t ∧ t.host.phase = .opening ∧ t.host.params = ps ∧
        t.host.reverseBits = rev ∧ t.rom = s.rom ∧ t.line = s.line) ∧
    (s.inputs = .event .openFailed :: rest → s.host.phase = .opening →
      ∃ t, step s = .next t ∧ t.host.phase = .closed (.failure .transportError) ∧
        t.host.transportOpen = s.host.transportOpen) ∧
    (∀ e r, s.inputs = .event e :: rest → s.host.phase = .closed r →
      step s = .next (s.setInputs rest))

/-- 45_host_environment.md R210 (decisions D15, D18, logs 14, 26): when the transport is acquired, packet 0 is built by
`PKT 0, reverseBits`; on an empty image nothing is sent, and the session closes with success (the model's choice,
log 26). -/
def Obligations.SendingBegins : Prop :=
  ∀ (s : State) (rest : List Input), s.inputs = .event .opened :: rest → s.host.phase = .opening →
    (s.rom.valid → 0 < s.rom.len →
      ∃ t, step s = .next t ∧ t.host.phase = .sending 0 ∧ t.host.transportOpen = true ∧
        t.pktv = true ∧ t.off = 0#24 ∧ t.reven = s.host.reverseBits) ∧
    (s.rom.len = 0 →
      ∃ t, step s = .next t ∧ t.host.phase = .closing .success ∧ t.line = s.line ∧ t.pkt = s.pkt)

/-- 45_host_environment.md R211, R215, R210 (decision D15), logs 14, 19, 22: a valid acknowledgment of packet i reports
progress, starts the count of resends again (log 19) and leads to packet i + 1, built in this step (log 14), or to
Closing(Success) after the last. -/
def Obligations.AcknowledgmentAdvances : Prop :=
  ∀ (s : State) (rest : List Input) (i : Nat) (frame : List Byte),
    s.inputs = .event (.reply frame) :: rest → s.host.phase = .awaitingAck i →
    frame ∈ s.host.params.ackFrames → s.rom.valid →
    ∃ t, step s = .next t ∧ t.host.progress = s.host.progress + 1 ∧ t.host.resends = 0 ∧
      (i + 1 < s.rom.len / 256 → t.host.phase = .sending (i + 1) ∧ t.pktv = true ∧
        t.off.toNat = 256 * (i + 1)) ∧
      (s.rom.len / 256 ≤ i + 1 → t.host.phase = .closing .success)

/-- 45_host_environment.md R212, R214 (marked derived there), logs 14, 19, 21: a negative acknowledgment or a timeout
leads to Retrying while resends are left, with the packet unchanged, else to `ProtocolError`; the write in Sending or
Retrying puts the 261 bytes of the buffer on the line, and by the invariant of the session these are the packet of
index i; where the host does not hold packet i (after a reset, or a PKT for another offset, R277) the same PKT command
is issued again first. -/
def Obligations.RetryResendsTheSamePacket : Prop :=
  ∀ (s : State) (rest : List Input) (i : Nat),
    (s.host.phase = .awaitingAck i →
      (s.inputs = .event .timeout :: rest ∨ ∃ frame, s.inputs = .event (.reply frame) :: rest ∧
        frame ∉ s.host.params.ackFrames ∧ frame ∈ s.host.params.nakFrames) →
      ∃ t, step s = .next t ∧ t.pkt = s.pkt ∧ t.pktv = s.pktv ∧ t.line = s.line ∧
        (s.host.resends < s.host.params.maxResends →
          t.host.phase = .retrying i ∧ t.host.resends = s.host.resends + 1) ∧
        (s.host.params.maxResends ≤ s.host.resends →
          t.host.phase = .closing (.failure .protocolError))) ∧
    (s.host.phase = .retrying i ∨ s.host.phase = .sending i → s.inputs = .event .written :: rest →
      (s.pktv = true → s.host.packetHeld = true → Memory.read s.pkt 0 = 0x5A#8 →
        ∃ t, step s = .next t ∧ t.host.phase = .awaitingAck i ∧ t.pkt = s.pkt ∧ t.pktv = true ∧
          t.line = s.line ++ (List.range 261).map fun k => Memory.read s.pkt k) ∧
      (HostInv s → s.rom.valid →
        ∃ t p, buildPacket s.rom (256 * i : Nat) s.host.reverseBits = .ok p ∧
          step s = .next t ∧ t.host.phase = .awaitingAck i ∧ t.line = s.line ++ p))

/-- 45_host_environment.md R213, R220 (decision D1), logs 17, 19, 25, 27: Closing releases the transport whatever the
result, by an event of its own (log 27); a cancellation leads at once to Closing, and an I/O failure to Closing or, in
Opening, where nothing is held, to Closed. In Closing either leaves the session there, a success no longer kept (log
25). Cancellation and failure leave the block as it is. -/
def Obligations.SessionsCloseTheTransport : Prop :=
  ∀ (s : State) (rest : List Input),
    (∀ r, s.inputs = .event .released :: rest → s.host.phase = .closing r →
      ∃ t, step s = .next t ∧ t.host.phase = .closed r ∧ t.host.transportOpen = false ∧
        t.host.releases = s.host.releases + (if s.host.transportOpen then 1 else 0)) ∧
    (s.inputs = .event .cancel :: rest →
      (s.host.phase = .opening ∨ ∃ i, s.host.phase = .sending i ∨ s.host.phase = .awaitingAck i ∨
        s.host.phase = .retrying i) →
      ∃ t, step s = .next t ∧ t.host.phase = .closing (.failure .cancelled) ∧ t.pkt = s.pkt ∧
        t.pktv = s.pktv ∧ t.rsp = s.rsp ∧ t.line = s.line) ∧
    (s.inputs = .event .ioError :: rest →
      (∃ i, s.host.phase = .sending i ∨ s.host.phase = .awaitingAck i ∨
        s.host.phase = .retrying i) →
      ∃ t, step s = .next t ∧ t.host.phase = .closing (.failure .transportError) ∧ t.pkt = s.pkt ∧
        t.pktv = s.pktv ∧ t.rsp = s.rsp ∧ t.line = s.line) ∧
    (s.inputs = .event .ioError :: rest → s.host.phase = .opening →
      ∃ t, step s = .next t ∧ t.host.phase = .closed (.failure .transportError) ∧ t.pkt = s.pkt ∧
        t.pktv = s.pktv ∧ t.rsp = s.rsp ∧ t.line = s.line) ∧
    (∀ r e c, s.inputs = .event e :: rest → s.host.phase = .closing r →
      (e = .cancel ∧ c = .cancelled ∨ e = .ioError ∧ c = .transportError) →
      step s = .next ((s.setInputs rest).setHost { s.host with
        phase := .closing (if r = .success then .failure c else r) }))

/-- 45_host_environment.md R211, 10_state.md R31: the packet index only ever increases, by one per acknowledged packet. -/
def Obligations.PacketIndexGrowsByOnePerAck : Prop :=
  ∀ (s t : State) (i j : Nat), step s = .next t → s.host.phase.packetIndex = some i →
    t.host.phase.packetIndex = some j →
    (j = i ∧ t.host.progress = s.host.progress) ∨
    (j = i + 1 ∧ t.host.progress = s.host.progress + 1 ∧ s.host.phase = .awaitingAck i)

/-- 45_host_environment.md R224, from AwaitingAck(i) on, logs 14, 19, 27: a transport that always answers with a negative
acknowledgment ends the session in `ProtocolError` after the configured limit (as log 19 counts it; the steps are
those of logs 14 and 27), with the transport released exactly once. -/
def Obligations.NakForeverEndsInProtocolError : Prop :=
  ∀ (s : State) (i : Nat) (nak : List Byte) (rest : List Input),
    s.host.phase = .awaitingAck i → s.host.resends = 0 → s.host.transportOpen = true →
    s.pktv = true → s.host.packetHeld = true → Memory.read s.pkt 0 = 0x5A#8 →
    nak ∉ s.host.params.ackFrames → nak ∈ s.host.params.nakFrames →
    s.inputs = (List.replicate s.host.params.maxResends
        [Input.event (.reply nak), Input.event .written]).flatten ++
      [Input.event (.reply nak), Input.event .released] ++ rest →
    ∃ t, Host.Core.run Sys2Proof.core (2 * s.host.params.maxResends + 2) s = .next t ∧
      t.host.phase = .closed (.failure .protocolError) ∧ t.host.transportOpen = false ∧
      t.host.releases = s.host.releases + 1 ∧ t.inputs = rest

/-- 45_host_environment.md R210 (decisions D11, D15, D18), R211, R213, logs 14, 21, 26, 27: with every write done and every
packet acknowledged, FLASH sends each chunk of the image once, in index order, and closes with success (for an
empty image log 26), in the number of steps that logs 14 and 27 give it. -/
def Obligations.FlashSendsTheWholeImage : Prop :=
  ∀ (s : State) (ack : List Byte) (rest : List Input), s.rom.valid →
    s.host.phase = .opening → ack ∈ s.host.params.ackFrames →
    s.inputs = [Input.event .opened] ++ (List.replicate (s.rom.len / 256)
        [Input.event .written, Input.event (.reply ack)]).flatten ++ [Input.event .released] ++ rest →
    ∃ t, Host.Core.run Sys2Proof.core (2 * (s.rom.len / 256) + 2) s = .next t ∧
      t.host.phase = .closed .success ∧ t.host.transportOpen = false ∧
      t.host.releases = s.host.releases + 1 ∧
      t.host.progress = s.host.progress + s.rom.len / 256 ∧ t.inputs = rest ∧
      ∃ packets : List (List Byte), packets.length = s.rom.len / 256 ∧
        (∀ i < s.rom.len / 256, ∃ p, packets[i]? = some p ∧
          buildPacket s.rom (256 * i : Nat) s.host.reverseBits = .ok p) ∧
        t.line = s.line ++ packets.flatten

/-- 45_host_environment.md R222, 60_exceptions.md R247, R241 (decisions D5, D9, D10), logs 25, 27: an error that a command
answers while a session runs aborts the session: it is in Closing(Failure) after it, with `ArgumentError` unless it
had failed before, and nothing was sent. -/
def Obligations.CommandErrorsAbortTheSession : Prop :=
  ∀ (s t : State) (w : CommandWord) (rest : List Input) (f : Failure),
    s.inputs = .code (.word w) :: rest → s.host.phase.active = true → step s = .next t →
    t.rsp = some (.error f) →
    ∃ c b, t.host = { s.host with phase := .closing (.failure c), packetHeld := b } ∧ t.line = s.line ∧
      (b ≠ s.host.packetHeld → ∃ o r, decodeWord w = .ok (.pkt o r)) ∧
      (s.host.phase = .closing (.failure c) ∨
        (c = .argumentError ∧ ∀ c', s.host.phase ≠ .closing (.failure c')))
end

