-- ==== Sys2Proof/Laws/Encoding.lean ====
section
/-!
SUPPORT. The fields of a command word and the bytes of a packet: packing and unpacking undo each other.
-/

namespace Sys2Proof

/-- A word from its fields as a number (30_encoding.md R88). -/
theorem toNat_packWord (op : BitVec 2) (rev : BitVec 1) (count : BitVec 9) (arg : Offset) :
    (packWord op rev count arg).toNat =
      op.toNat * 2 ^ 34 + rev.toNat * 2 ^ 33 + count.toNat * 2 ^ 24 + arg.toNat := by
  simp only [packWord, BitVec.toNat_append]
  rw [← Nat.shiftLeft_add_eq_or_of_lt arg.isLt, ← Nat.shiftLeft_add_eq_or_of_lt count.isLt,
    ← Nat.shiftLeft_add_eq_or_of_lt rev.isLt]
  simp only [Nat.shiftLeft_eq]
  omega

theorem toNat_opField (w : CommandWord) : (opField w).toNat = w.toNat / 2 ^ 34 % 4 := by
  simp [opField, Nat.shiftRight_eq_div_pow]

theorem toNat_revField (w : CommandWord) : (revField w).toNat = w.toNat / 2 ^ 33 % 2 := by
  simp [revField, Nat.shiftRight_eq_div_pow]

theorem toNat_countField (w : CommandWord) : (countField w).toNat = w.toNat / 2 ^ 24 % 512 := by
  simp [countField, Nat.shiftRight_eq_div_pow]

theorem toNat_argField (w : CommandWord) : (argField w).toNat = w.toNat % 2 ^ 24 := by
  simp [argField]

theorem toNat_argHigh (w : CommandWord) : (argHigh w).toNat = w.toNat / 256 % 65536 := by
  simp [argHigh, Nat.shiftRight_eq_div_pow]

theorem toNat_argByte (w : CommandWord) : (argByte w).toNat = w.toNat % 256 := by
  simp [argByte]

section
variable (op : BitVec 2) (rev : BitVec 1) (count : BitVec 9) (arg : Offset)

@[simp] theorem opField_packWord : opField (packWord op rev count arg) = op := by
  apply BitVec.eq_of_toNat_eq
  rw [toNat_opField, toNat_packWord]
  omega

@[simp] theorem revField_packWord : revField (packWord op rev count arg) = rev := by
  apply BitVec.eq_of_toNat_eq
  rw [toNat_revField, toNat_packWord]
  omega

@[simp] theorem countField_packWord : countField (packWord op rev count arg) = count := by
  apply BitVec.eq_of_toNat_eq
  rw [toNat_countField, toNat_packWord]
  omega

@[simp] theorem argField_packWord : argField (packWord op rev count arg) = arg := by
  apply BitVec.eq_of_toNat_eq
  rw [toNat_argField, toNat_packWord]
  omega

end

/-- Every word is the packing of its four fields. -/
theorem packWord_fields (w : CommandWord) :
    packWord (opField w) (revField w) (countField w) (argField w) = w := by
  apply BitVec.eq_of_toNat_eq
  rw [toNat_packWord, toNat_opField, toNat_revField, toNat_countField, toNat_argField]
  omega

/-- The argument field is its high part and its low byte. -/
theorem argField_eq_append (w : CommandWord) : argField w = argHigh w ++ argByte w := by
  apply BitVec.eq_of_toNat_eq
  rw [BitVec.toNat_append, ← Nat.shiftLeft_add_eq_or_of_lt (argByte w).isLt, toNat_argField,
    toNat_argHigh, toNat_argByte]
  simp only [Nat.shiftLeft_eq]
  omega

/-- A 24-bit address is its three bytes, most significant first (20_memory.md R54). -/
theorem append_address_bytes (a : Offset) :
    a.extractLsb' 16 8 ++ a.extractLsb' 8 8 ++ a.extractLsb' 0 8 = a := by
  apply BitVec.eq_of_toNat_eq
  simp only [BitVec.toNat_append]
  rw [← Nat.shiftLeft_add_eq_or_of_lt (BitVec.isLt _), ← Nat.shiftLeft_add_eq_or_of_lt (BitVec.isLt _)]
  simp [Nat.shiftLeft_eq, Nat.shiftRight_eq_div_pow]
  omega

@[simp] theorem length_packetBytes (addr : Offset) (payload : List Byte) (checksum : Byte) :
    (packetBytes addr payload checksum).length = payload.length + 5 := by
  simp [packetBytes]

/-- Two words are equal when their four fields are. -/
theorem packWord_inj (a a' : BitVec 2) (b b' : BitVec 1) (c c' : BitVec 9) (d d' : Offset) :
    packWord a b c d = packWord a' b' c' d' ↔ a = a' ∧ b = b' ∧ c = c' ∧ d = d' := by
  constructor
  · intro h
    exact ⟨by rw [← opField_packWord a b c d, h, opField_packWord],
      by rw [← revField_packWord a b c d, h, revField_packWord],
      by rw [← countField_packWord a b c d, h, countField_packWord],
      by rw [← argField_packWord a b c d, h, argField_packWord]⟩
  · rintro ⟨rfl, rfl, rfl, rfl⟩
    rfl

/-- A match and mask test of a row (30_encoding.md R90), field by field. -/
theorem and_eq_iff_fields (w m v : CommandWord) :
    w &&& m = v ↔ opField w &&& opField m = opField v ∧ revField w &&& revField m = revField v ∧
      countField w &&& countField m = countField v ∧ argField w &&& argField m = argField v := by
  have h : w &&& m = packWord (opField w &&& opField m) (revField w &&& revField m)
      (countField w &&& countField m) (argField w &&& argField m) := by
    rw [← packWord_fields (w &&& m)]
    simp [opField, revField, countField, argField, BitVec.extractLsb'_and]
  rw [h, ← packWord_fields v, packWord_inj]
  simp

end Sys2Proof
end

