-- ==== Sys2Proof/Laws/State.lean ====
section
/-!
SUPPORT. What each update of the state does to each field: one lemma per field per update, so that no proof
unfolds a record update.
-/

namespace Sys2Proof.Machine

@[simp] theorem State.setRsp_pkt (s : State) (r : Option Response) : (s.setRsp r).pkt = s.pkt := rfl
@[simp] theorem State.setRsp_pktv (s : State) (r : Option Response) : (s.setRsp r).pktv = s.pktv := rfl
@[simp] theorem State.setRsp_acc (s : State) (r : Option Response) : (s.setRsp r).acc = s.acc := rfl
@[simp] theorem State.setRsp_off (s : State) (r : Option Response) : (s.setRsp r).off = s.off := rfl
@[simp] theorem State.setRsp_reven (s : State) (r : Option Response) : (s.setRsp r).reven = s.reven := rfl
@[simp] theorem State.setRsp_rsp (s : State) (r : Option Response) : (s.setRsp r).rsp = r := rfl
@[simp] theorem State.setRsp_rom (s : State) (r : Option Response) : (s.setRsp r).rom = s.rom := rfl
@[simp] theorem State.setRsp_line (s : State) (r : Option Response) : (s.setRsp r).line = s.line := rfl
@[simp] theorem State.setRsp_host (s : State) (r : Option Response) : (s.setRsp r).host = s.host := rfl
@[simp] theorem State.setRsp_inputs (s : State) (r : Option Response) : (s.setRsp r).inputs = s.inputs := rfl

@[simp] theorem State.setPkt_pkt (s : State) (m : Memory) : (s.setPkt m).pkt = m := rfl
@[simp] theorem State.setPkt_pktv (s : State) (m : Memory) : (s.setPkt m).pktv = s.pktv := rfl
@[simp] theorem State.setPkt_acc (s : State) (m : Memory) : (s.setPkt m).acc = s.acc := rfl
@[simp] theorem State.setPkt_off (s : State) (m : Memory) : (s.setPkt m).off = s.off := rfl
@[simp] theorem State.setPkt_reven (s : State) (m : Memory) : (s.setPkt m).reven = s.reven := rfl
@[simp] theorem State.setPkt_rsp (s : State) (m : Memory) : (s.setPkt m).rsp = s.rsp := rfl
@[simp] theorem State.setPkt_rom (s : State) (m : Memory) : (s.setPkt m).rom = s.rom := rfl
@[simp] theorem State.setPkt_line (s : State) (m : Memory) : (s.setPkt m).line = s.line := rfl
@[simp] theorem State.setPkt_host (s : State) (m : Memory) : (s.setPkt m).host = s.host := rfl
@[simp] theorem State.setPkt_inputs (s : State) (m : Memory) : (s.setPkt m).inputs = s.inputs := rfl

@[simp] theorem State.setPktv_pkt (s : State) (b : Bool) : (s.setPktv b).pkt = s.pkt := rfl
@[simp] theorem State.setPktv_pktv (s : State) (b : Bool) : (s.setPktv b).pktv = b := rfl
@[simp] theorem State.setPktv_acc (s : State) (b : Bool) : (s.setPktv b).acc = s.acc := rfl
@[simp] theorem State.setPktv_off (s : State) (b : Bool) : (s.setPktv b).off = s.off := rfl
@[simp] theorem State.setPktv_reven (s : State) (b : Bool) : (s.setPktv b).reven = s.reven := rfl
@[simp] theorem State.setPktv_rsp (s : State) (b : Bool) : (s.setPktv b).rsp = s.rsp := rfl
@[simp] theorem State.setPktv_rom (s : State) (b : Bool) : (s.setPktv b).rom = s.rom := rfl
@[simp] theorem State.setPktv_line (s : State) (b : Bool) : (s.setPktv b).line = s.line := rfl
@[simp] theorem State.setPktv_host (s : State) (b : Bool) : (s.setPktv b).host = s.host := rfl
@[simp] theorem State.setPktv_inputs (s : State) (b : Bool) : (s.setPktv b).inputs = s.inputs := rfl

@[simp] theorem State.setAcc_pkt (s : State) (v : Byte) : (s.setAcc v).pkt = s.pkt := rfl
@[simp] theorem State.setAcc_pktv (s : State) (v : Byte) : (s.setAcc v).pktv = s.pktv := rfl
@[simp] theorem State.setAcc_acc (s : State) (v : Byte) : (s.setAcc v).acc = v := rfl
@[simp] theorem State.setAcc_off (s : State) (v : Byte) : (s.setAcc v).off = s.off := rfl
@[simp] theorem State.setAcc_reven (s : State) (v : Byte) : (s.setAcc v).reven = s.reven := rfl
@[simp] theorem State.setAcc_rsp (s : State) (v : Byte) : (s.setAcc v).rsp = s.rsp := rfl
@[simp] theorem State.setAcc_rom (s : State) (v : Byte) : (s.setAcc v).rom = s.rom := rfl
@[simp] theorem State.setAcc_line (s : State) (v : Byte) : (s.setAcc v).line = s.line := rfl
@[simp] theorem State.setAcc_host (s : State) (v : Byte) : (s.setAcc v).host = s.host := rfl
@[simp] theorem State.setAcc_inputs (s : State) (v : Byte) : (s.setAcc v).inputs = s.inputs := rfl

@[simp] theorem State.setLatch_pkt (s : State) (o : Offset) (e : Bool) : (s.setLatch o e).pkt = s.pkt := rfl
@[simp] theorem State.setLatch_pktv (s : State) (o : Offset) (e : Bool) : (s.setLatch o e).pktv = s.pktv := rfl
@[simp] theorem State.setLatch_acc (s : State) (o : Offset) (e : Bool) : (s.setLatch o e).acc = s.acc := rfl
@[simp] theorem State.setLatch_off (s : State) (o : Offset) (e : Bool) : (s.setLatch o e).off = o := rfl
@[simp] theorem State.setLatch_reven (s : State) (o : Offset) (e : Bool) : (s.setLatch o e).reven = e := rfl
@[simp] theorem State.setLatch_rsp (s : State) (o : Offset) (e : Bool) : (s.setLatch o e).rsp = s.rsp := rfl
@[simp] theorem State.setLatch_rom (s : State) (o : Offset) (e : Bool) : (s.setLatch o e).rom = s.rom := rfl
@[simp] theorem State.setLatch_line (s : State) (o : Offset) (e : Bool) : (s.setLatch o e).line = s.line := rfl
@[simp] theorem State.setLatch_host (s : State) (o : Offset) (e : Bool) : (s.setLatch o e).host = s.host := rfl
@[simp] theorem State.setLatch_inputs (s : State) (o : Offset) (e : Bool) : (s.setLatch o e).inputs = s.inputs := rfl

@[simp] theorem State.setRom_pkt (s : State) (im : Image) : (s.setRom im).pkt = s.pkt := rfl
@[simp] theorem State.setRom_pktv (s : State) (im : Image) : (s.setRom im).pktv = s.pktv := rfl
@[simp] theorem State.setRom_acc (s : State) (im : Image) : (s.setRom im).acc = s.acc := rfl
@[simp] theorem State.setRom_off (s : State) (im : Image) : (s.setRom im).off = s.off := rfl
@[simp] theorem State.setRom_reven (s : State) (im : Image) : (s.setRom im).reven = s.reven := rfl
@[simp] theorem State.setRom_rsp (s : State) (im : Image) : (s.setRom im).rsp = s.rsp := rfl
@[simp] theorem State.setRom_rom (s : State) (im : Image) : (s.setRom im).rom = im := rfl
@[simp] theorem State.setRom_line (s : State) (im : Image) : (s.setRom im).line = s.line := rfl
@[simp] theorem State.setRom_host (s : State) (im : Image) : (s.setRom im).host = s.host := rfl
@[simp] theorem State.setRom_inputs (s : State) (im : Image) : (s.setRom im).inputs = s.inputs := rfl

@[simp] theorem State.setLine_pkt (s : State) (l : List Byte) : (s.setLine l).pkt = s.pkt := rfl
@[simp] theorem State.setLine_pktv (s : State) (l : List Byte) : (s.setLine l).pktv = s.pktv := rfl
@[simp] theorem State.setLine_acc (s : State) (l : List Byte) : (s.setLine l).acc = s.acc := rfl
@[simp] theorem State.setLine_off (s : State) (l : List Byte) : (s.setLine l).off = s.off := rfl
@[simp] theorem State.setLine_reven (s : State) (l : List Byte) : (s.setLine l).reven = s.reven := rfl
@[simp] theorem State.setLine_rsp (s : State) (l : List Byte) : (s.setLine l).rsp = s.rsp := rfl
@[simp] theorem State.setLine_rom (s : State) (l : List Byte) : (s.setLine l).rom = s.rom := rfl
@[simp] theorem State.setLine_line (s : State) (l : List Byte) : (s.setLine l).line = l := rfl
@[simp] theorem State.setLine_host (s : State) (l : List Byte) : (s.setLine l).host = s.host := rfl
@[simp] theorem State.setLine_inputs (s : State) (l : List Byte) : (s.setLine l).inputs = s.inputs := rfl

@[simp] theorem State.setHost_pkt (s : State) (h : HostSide) : (s.setHost h).pkt = s.pkt := rfl
@[simp] theorem State.setHost_pktv (s : State) (h : HostSide) : (s.setHost h).pktv = s.pktv := rfl
@[simp] theorem State.setHost_acc (s : State) (h : HostSide) : (s.setHost h).acc = s.acc := rfl
@[simp] theorem State.setHost_off (s : State) (h : HostSide) : (s.setHost h).off = s.off := rfl
@[simp] theorem State.setHost_reven (s : State) (h : HostSide) : (s.setHost h).reven = s.reven := rfl
@[simp] theorem State.setHost_rsp (s : State) (h : HostSide) : (s.setHost h).rsp = s.rsp := rfl
@[simp] theorem State.setHost_rom (s : State) (h : HostSide) : (s.setHost h).rom = s.rom := rfl
@[simp] theorem State.setHost_line (s : State) (h : HostSide) : (s.setHost h).line = s.line := rfl
@[simp] theorem State.setHost_host (s : State) (h : HostSide) : (s.setHost h).host = h := rfl
@[simp] theorem State.setHost_inputs (s : State) (h : HostSide) : (s.setHost h).inputs = s.inputs := rfl

@[simp] theorem State.setInputs_pkt (s : State) (l : List Input) : (s.setInputs l).pkt = s.pkt := rfl
@[simp] theorem State.setInputs_pktv (s : State) (l : List Input) : (s.setInputs l).pktv = s.pktv := rfl
@[simp] theorem State.setInputs_acc (s : State) (l : List Input) : (s.setInputs l).acc = s.acc := rfl
@[simp] theorem State.setInputs_off (s : State) (l : List Input) : (s.setInputs l).off = s.off := rfl
@[simp] theorem State.setInputs_reven (s : State) (l : List Input) : (s.setInputs l).reven = s.reven := rfl
@[simp] theorem State.setInputs_rsp (s : State) (l : List Input) : (s.setInputs l).rsp = s.rsp := rfl
@[simp] theorem State.setInputs_rom (s : State) (l : List Input) : (s.setInputs l).rom = s.rom := rfl
@[simp] theorem State.setInputs_line (s : State) (l : List Input) : (s.setInputs l).line = s.line := rfl
@[simp] theorem State.setInputs_host (s : State) (l : List Input) : (s.setInputs l).host = s.host := rfl
@[simp] theorem State.setInputs_inputs (s : State) (l : List Input) : (s.setInputs l).inputs = l := rfl

/-- Two states are equal when their fields are. -/
theorem State.ext_fields {s t : State} (pkt : s.pkt = t.pkt) (pktv : s.pktv = t.pktv)
    (acc : s.acc = t.acc) (off : s.off = t.off) (reven : s.reven = t.reven) (rsp : s.rsp = t.rsp)
    (rom : s.rom = t.rom) (line : s.line = t.line) (host : s.host = t.host)
    (inputs : s.inputs = t.inputs) : s = t := by
  cases s
  cases t
  simp_all

end Sys2Proof.Machine
end

