-- ==== Sys2Proof/Laws/Memory.lean ====
section
/-!
SUPPORT. The laws of memory: a read after a write, the canonical form is kept by every operation, equal reads
make equal memories, and what a slice and a memory made of bytes hold.
-/

namespace Sys2Proof.Machine

@[simp] theorem Memory.read_nil (a : Nat) : Memory.read [] a = Memory.blank := rfl

theorem Memory.read_cons (c : Host.Cell) (m : Memory) (a : Nat) :
    Memory.read (c :: m) a = if c.1 = a then c.2 else Memory.read m a := rfl

theorem Memory.wf_nil : Memory.wf [] := by simp [Memory.wf]

theorem Memory.wf_cons {c : Host.Cell} {m : Memory} :
    Memory.wf (c :: m) ↔ (∀ d ∈ m, c.1 < d.1) ∧ c.2 ≠ Memory.blank ∧ Memory.wf m := by
  simp only [Memory.wf, List.pairwise_cons, List.mem_cons, forall_eq_or_imp]
  tauto

/-- An address below every entry reads as unlisted. -/
theorem Memory.read_of_lt_all {m : Memory} {a : Nat} (h : ∀ d ∈ m, a < d.1) :
    Memory.read m a = Memory.blank := by
  induction m with
  | nil => rfl
  | cons c m ih =>
    have hc := h c (by simp)
    rw [Memory.read_cons, if_neg (by omega)]
    exact ih fun d hd => h d (by simp [hd])

/-- An address past every entry reads as unlisted. -/
theorem Memory.read_of_below {m : Memory} {n a : Nat} (h : Memory.below m n) (ha : n ≤ a) :
    Memory.read m a = Memory.blank := by
  induction m with
  | nil => rfl
  | cons c m ih =>
    have hc := h c (by simp)
    rw [Memory.read_cons, if_neg (by omega)]
    exact ih fun d hd => h d (by simp [hd])

/-- A read after a write to the same address gives the value written. -/
theorem Memory.read_write_same {m : Memory} (h : Memory.wf m) (a : Nat) (v : Byte) :
    Memory.read (Memory.write m a v) a = v := by
  induction m with
  | nil =>
    by_cases hv : v = Memory.blank <;> simp [Memory.write, Memory.read_cons, hv]
  | cons c m ih =>
    obtain ⟨hlt, -, hm⟩ := Memory.wf_cons.1 h
    rcases Nat.lt_trichotomy a c.1 with hac | hac | hac
    · by_cases hv : v = Memory.blank
      · have := Memory.read_of_lt_all (m := c :: m) (a := a) (by
          simp only [List.mem_cons, forall_eq_or_imp]
          exact ⟨hac, fun d hd => hac.trans (hlt d hd)⟩)
        simp [Memory.write, hac, hv, this]
      · simp [Memory.write, hac, hv, Memory.read_cons]
    · subst hac
      by_cases hv : v = Memory.blank
      · simpa [Memory.write, hv] using Memory.read_of_lt_all hlt
      · simp [Memory.write, hv, Memory.read_cons]
    · have h1 : ¬ a < c.1 := by omega
      have h2 : a ≠ c.1 := by omega
      simp [Memory.write, h1, h2, Memory.read_cons, ih hm, h2.symm]

/-- A write leaves every other address alone. -/
theorem Memory.read_write_other {m : Memory} {a b : Nat} (h : b ≠ a) (v : Byte) :
    Memory.read (Memory.write m a v) b = Memory.read m b := by
  induction m with
  | nil =>
    by_cases hv : v = Memory.blank <;> simp [Memory.write, Memory.read_cons, hv, h.symm]
  | cons c m ih =>
    simp only [Memory.write]
    split_ifs with h1 h2 h3 h4
    · rfl
    · rw [Memory.read_cons, if_neg h.symm]
    · rw [Memory.read_cons, if_neg (by omega)]
    · rw [Memory.read_cons, Memory.read_cons, if_neg h.symm, if_neg (by omega)]
    · rw [Memory.read_cons, Memory.read_cons, ih]

/-- What a write puts in the list was there or is the cell written. -/
theorem Memory.mem_write {m : Memory} {a : Nat} {v : Byte} {d : Host.Cell}
    (h : d ∈ Memory.write m a v) : d ∈ m ∨ (d = (a, v) ∧ v ≠ Memory.blank) := by
  induction m with
  | nil =>
    by_cases hv : v = Memory.blank <;> simp_all [Memory.write]
  | cons c m ih =>
    simp only [Memory.write] at h
    split_ifs at h <;> simp only [List.mem_cons] at h ⊢ <;> tauto

/-- A write keeps the canonical form. -/
theorem Memory.wf_write {m : Memory} (h : Memory.wf m) (a : Nat) (v : Byte) :
    Memory.wf (Memory.write m a v) := by
  induction m with
  | nil =>
    by_cases hv : v = Memory.blank <;> simp [Memory.write, Memory.wf, hv]
  | cons c m ih =>
    obtain ⟨hlt, hc, hm⟩ := Memory.wf_cons.1 h
    simp only [Memory.write]
    split_ifs with h1 h2 h3 h4
    · exact h
    · refine Memory.wf_cons.2 ⟨?_, h2, h⟩
      simp only [List.mem_cons, forall_eq_or_imp]
      exact ⟨h1, fun d hd => h1.trans (hlt d hd)⟩
    · exact hm
    · exact Memory.wf_cons.2 ⟨fun d hd => h3 ▸ hlt d hd, h4, hm⟩
    · refine Memory.wf_cons.2 ⟨fun d hd => ?_, hc, ih hm⟩
      rcases Memory.mem_write hd with hd | ⟨rfl, -⟩
      · exact hlt d hd
      · simp only; omega

/-- A write below a bound keeps the memory below it. -/
theorem Memory.below_write {m : Memory} {n a : Nat} (h : Memory.below m n) (ha : a < n) (v : Byte) :
    Memory.below (Memory.write m a v) n := by
  intro d hd
  rcases Memory.mem_write hd with hd | ⟨rfl, -⟩
  · exact h d hd
  · exact ha

theorem Memory.ofBytesFrom_le {bs : List Byte} {a : Nat} {d : Host.Cell}
    (h : d ∈ Memory.ofBytesFrom a bs) : a ≤ d.1 ∧ d.1 < a + bs.length ∧ d.2 ≠ Memory.blank := by
  induction bs generalizing a with
  | nil => simp [Memory.ofBytesFrom] at h
  | cons b bs ih =>
    simp only [Memory.ofBytesFrom] at h
    split_ifs at h with hb
    · obtain ⟨h1, h2, h3⟩ := ih h
      exact ⟨by omega, by simp only [List.length_cons]; omega, h3⟩
    · rcases List.mem_cons.1 h with rfl | h
      · exact ⟨le_refl _, by simp, hb⟩
      · obtain ⟨h1, h2, h3⟩ := ih h
        exact ⟨by omega, by simp only [List.length_cons]; omega, h3⟩

/-- The memory made of bytes is canonical. -/
theorem Memory.wf_ofBytesFrom (bs : List Byte) (a : Nat) : Memory.wf (Memory.ofBytesFrom a bs) := by
  induction bs generalizing a with
  | nil => exact Memory.wf_nil
  | cons b bs ih =>
    simp only [Memory.ofBytesFrom]
    split_ifs with hb
    · exact ih _
    · refine Memory.wf_cons.2 ⟨fun d hd => ?_, hb, ih _⟩
      have := Memory.ofBytesFrom_le hd
      simp only
      omega

theorem Memory.wf_ofBytes (bs : List Byte) : Memory.wf (Memory.ofBytes bs) := Memory.wf_ofBytesFrom bs 0

theorem Memory.below_ofBytes (bs : List Byte) : Memory.below (Memory.ofBytes bs) bs.length := by
  intro d hd
  have := Memory.ofBytesFrom_le hd
  omega

theorem Image.wf_ofBytes (bs : List Byte) : (Image.ofBytes bs).wf :=
  ⟨Memory.wf_ofBytes bs, Memory.below_ofBytes bs⟩

theorem Memory.read_ofBytesFrom (bs : List Byte) (a k : Nat) :
    Memory.read (Memory.ofBytesFrom a bs) (a + k) = bs.getD k Memory.blank := by
  induction bs generalizing a k with
  | nil => simp [Memory.ofBytesFrom]
  | cons b bs ih =>
    cases k with
    | zero =>
      simp only [Memory.ofBytesFrom]
      split_ifs with hb
      · rw [Memory.read_of_lt_all fun d hd => by have := Memory.ofBytesFrom_le hd; omega]
        simp [hb]
      · simp [Memory.read_cons]
    | succ k =>
      have e : a + (k + 1) = a + 1 + k := by omega
      simp only [Memory.ofBytesFrom]
      split_ifs with hb
      · rw [e, ih]
        simp
      · rw [Memory.read_cons, if_neg (by simp), e, ih]
        simp

/-- The memory made of bytes reads as the bytes. -/
theorem Memory.read_ofBytes (bs : List Byte) (k : Nat) :
    Memory.read (Memory.ofBytes bs) k = bs.getD k Memory.blank := by
  have := Memory.read_ofBytesFrom bs 0 k
  rwa [Nat.zero_add] at this

/-- Canonical memories that read alike are equal. -/
theorem Memory.ext_read {m n : Memory} (hm : Memory.wf m) (hn : Memory.wf n)
    (h : ∀ a, Memory.read m a = Memory.read n a) : m = n := by
  induction m generalizing n with
  | nil =>
    cases n with
    | nil => rfl
    | cons d n =>
      obtain ⟨-, hd, -⟩ := Memory.wf_cons.1 hn
      exact absurd (by simpa [Memory.read_cons] using (h d.1).symm) hd
  | cons c m ih =>
    obtain ⟨hcm, hc, hm'⟩ := Memory.wf_cons.1 hm
    cases n with
    | nil => exact absurd (by simpa [Memory.read_cons] using h c.1) hc
    | cons d n =>
      obtain ⟨hdn, hd, hn'⟩ := Memory.wf_cons.1 hn
      have key : c.1 = d.1 := by
        rcases Nat.lt_trichotomy c.1 d.1 with hlt | heq | hgt
        · have := h c.1
          rw [Memory.read_cons, if_pos rfl, Memory.read_of_lt_all (m := d :: n)] at this
          · exact absurd this hc
          · simp only [List.mem_cons, forall_eq_or_imp]
            exact ⟨hlt, fun e he => hlt.trans (hdn e he)⟩
        · exact heq
        · have := h d.1
          rw [Memory.read_cons (m := n), if_pos rfl, Memory.read_of_lt_all (m := c :: m)] at this
          · exact absurd this.symm hd
          · simp only [List.mem_cons, forall_eq_or_imp]
            exact ⟨hgt, fun e he => hgt.trans (hcm e he)⟩
      have hv : c.2 = d.2 := by simpa [Memory.read_cons, key] using h c.1
      have hrest : m = n := by
        refine ih hm' hn' fun a => ?_
        by_cases ha : c.1 = a
        · rw [Memory.read_of_lt_all (m := m), Memory.read_of_lt_all (m := n)]
          · intro e he
            have := hdn e he
            omega
          · intro e he
            have := hcm e he
            omega
        · have := h a
          rwa [Memory.read_cons, Memory.read_cons, if_neg ha, if_neg (by omega)] at this
      rw [hrest, show c = d from Prod.ext key hv]

/-- The premise of a ROM image in numbers (10_state.md R28). -/
theorem Image.valid_iff (im : Image) : im.valid = true ↔ im.len % 256 = 0 ∧ im.len ≤ 1048576 := by
  simp [Image.valid]

@[simp] theorem Memory.slice_zero (m : Memory) (a : Nat) : Memory.slice m a 0 = [] := rfl

theorem Memory.slice_succ (m : Memory) (a n : Nat) :
    Memory.slice m a (n + 1) = Memory.read m a :: Memory.slice m (a + 1) n := rfl

@[simp] theorem Memory.length_slice (m : Memory) (a n : Nat) : (Memory.slice m a n).length = n := by
  induction n generalizing a with
  | zero => rfl
  | succ n ih => simp [Memory.slice_succ, ih]

/-- Entry `k` of a slice is the byte at its address. -/
theorem Memory.getElem?_slice (m : Memory) (a n k : Nat) :
    (Memory.slice m a n)[k]? = if k < n then some (Memory.read m (a + k)) else none := by
  induction n generalizing a k with
  | zero => simp
  | succ n ih =>
    cases k with
    | zero => simp [Memory.slice_succ]
    | succ k =>
      rw [Memory.slice_succ, List.getElem?_cons_succ, ih]
      simp [Nat.add_assoc, Nat.add_comm 1 k]

theorem Memory.slice_eq_map (m : Memory) (a n : Nat) :
    Memory.slice m a n = (List.range n).map fun k => Memory.read m (a + k) := by
  apply List.ext_getElem?
  intro k
  rw [Memory.getElem?_slice]
  by_cases h : k < n <;> simp [h]

/-- A slice depends on the bytes it covers alone. -/
theorem Memory.slice_congr {m n : Memory} {a b len : Nat}
    (h : ∀ k < len, Memory.read m (a + k) = Memory.read n (b + k)) :
    Memory.slice m a len = Memory.slice n b len := by
  apply List.ext_getElem?
  intro k
  rw [Memory.getElem?_slice, Memory.getElem?_slice]
  by_cases hk : k < len <;> simp [hk, h]

theorem Memory.slice_append (m : Memory) (a n k : Nat) :
    Memory.slice m a (n + k) = Memory.slice m a n ++ Memory.slice m (a + n) k := by
  induction n generalizing a with
  | zero => simp
  | succ n ih =>
    rw [show n + 1 + k = (n + k) + 1 by omega, Memory.slice_succ, ih, Memory.slice_succ,
      List.cons_append, show a + 1 + n = a + (n + 1) by omega]

/-- A slice of the memory made of bytes is the bytes. -/
theorem Memory.slice_ofBytes (bs : List Byte) (a n : Nat) (h : a + n ≤ bs.length) :
    Memory.slice (Memory.ofBytes bs) a n = (bs.drop a).take n := by
  apply List.ext_getElem?
  intro k
  rw [Memory.getElem?_slice, Memory.read_ofBytes]
  by_cases hk : k < n
  · have : a + k < bs.length := by omega
    simp [hk, List.getElem?_drop, this]
  · simp [hk]

/-- The whole of the memory made of bytes. -/
theorem Memory.slice_ofBytes_all (bs : List Byte) :
    Memory.slice (Memory.ofBytes bs) 0 bs.length = bs := by
  simpa using Memory.slice_ofBytes bs 0 bs.length (by simp)

/-- The memory of State.reset has the canonical form. -/
theorem State.reset_memory_wf : Memory.wf State.reset.pkt ∧ State.reset.rom.wf := by
  decide

end Sys2Proof.Machine
end

