-- ==== Sys2Proof/Laws/Ops.lean ====
section
/-!
SUPPORT. What the shared operations of ENC, SUM and PKT give: the address bytes, the packet's bytes and the
outcome of each functional rule, said once.
-/

namespace Sys2Proof.Machine

/-- The three formulas of 40_address_encoder.md R112 as divisions. -/
theorem toNat_addressBytes (n : Nat) :
    (addressBytes n).1.toNat = n / 65536 % 256 ∧ (addressBytes n).2.1.toNat = n / 256 % 256 ∧
      (addressBytes n).2.2.toNat = n % 256 := by
  have h (x : Nat) : x &&& 255 = x % 256 := Nat.and_two_pow_sub_one_eq_mod x 8
  simp [addressBytes, h, Nat.shiftRight_eq_div_pow]

/-- The address bytes of a 24-bit offset are its slices (R112). -/
theorem addressBytes_offset (o : Offset) :
    addressBytes o.toNat = (o.extractLsb' 16 8, o.extractLsb' 8 8, o.extractLsb' 0 8) := by
  obtain ⟨a, b, c⟩ := toNat_addressBytes o.toNat
  refine Prod.ext ?_ (Prod.ext ?_ ?_) <;> apply BitVec.eq_of_toNat_eq
  · rw [a]
    simp [Nat.shiftRight_eq_div_pow]
  · rw [b]
    simp [Nat.shiftRight_eq_div_pow]
  · rw [c]
    simp

/-- An accepted offset has its three bytes (R111, R112). -/
theorem encodeAddress_ok {o : Nat} (h : o ≤ 1048576) : encodeAddress o = .ok (addressBytes o) := by
  have h1 : ¬ (o : Int) < 0 := by omega
  have h2 : ¬ (o : Int) > (Config.offsetMax : Nat) := by
    simp only [Config.offsetMax]
    omega
  simp only [encodeAddress, if_neg h1, if_neg h2, Int.toNat_natCast]

@[simp] theorem low24_zext (o : Offset) : low24 (zext o) = o := by simp [low24, zext]

@[simp] theorem zext_toNat {n : Nat} (v : BitVec n) : (zext v).toNat = v.toNat := by simp [zext]

@[simp] theorem length_chunkPayload (rom : Image) (o : Nat) (r : Bool) :
    (chunkPayload rom o r).length = 256 := by
  simp [chunkPayload, Config.chunk]

/-- Byte `j` of the payload (43_packet_formatter.md R175). -/
theorem getD_chunkPayload (rom : Image) (o : Nat) (r : Bool) {j : Nat} (hj : j < 256) :
    (chunkPayload rom o r).getD j 0#8 = payloadByte r (Memory.read rom.mem (o + j)) := by
  rw [chunkPayload, List.getD_eq_getElem?_getD, List.getElem?_map, Memory.getElem?_slice, if_pos hj]
  rfl

@[simp] theorem length_framePacket (a : Byte × Byte × Byte) (p : List Byte) :
    (framePacket a p).length = p.length + 5 := by
  simp [framePacket]

/-- Packet byte `4 + j` is payload byte `j` (30_encoding.md R81). -/
theorem getD_framePacket_payload (a : Byte × Byte × Byte) (p : List Byte) {j : Nat}
    (hj : j < p.length) : (framePacket a p).getD (4 + j) 0#8 = p.getD j 0#8 := by
  simp only [framePacket, List.cons_append, List.getD_eq_getElem?_getD]
  rw [show 4 + j = j + 1 + 1 + 1 + 1 by omega]
  simp only [List.getElem?_cons_succ]
  rw [List.getElem?_append_left hj]

/-- Packet byte 260 is the sum of the covered bytes (43_packet_formatter.md R176). -/
theorem getD_framePacket_checksum (a : Byte × Byte × Byte) (p : List Byte) (hp : p.length = 256) :
    (framePacket a p).getD 260 0#8 = accumulate (a.1 :: a.2.1 :: a.2.2 :: p) := by
  simp only [framePacket, List.cons_append, List.getD_eq_getElem?_getD]
  rw [show 260 = 256 + 1 + 1 + 1 + 1 by omega]
  simp only [List.getElem?_cons_succ]
  rw [List.getElem?_append_right (by omega)]
  simp [hp]

/-- Packet bytes 1 to 259 are the covered bytes. -/
theorem slice_framePacket (a : Byte × Byte × Byte) (p : List Byte) (hp : p.length = 256) :
    Memory.slice (Memory.ofBytes (framePacket a p)) 1 259 = a.1 :: a.2.1 :: a.2.2 :: p := by
  rw [Memory.slice_ofBytes _ _ _ (by simp [hp])]
  simp only [framePacket, List.drop_succ_cons, List.drop_zero]
  rw [List.take_append_of_le_length (by simp [hp]), List.take_of_length_le (by simp [hp])]

/-- PKT's functional rule on a chunk of a ROM image (R171, R172). -/
theorem buildPacket_ok {rom : Image} {o : Nat} (r : Bool) (hv : rom.valid = true) (h1 : o % 256 = 0)
    (h2 : o + 256 ≤ rom.len) :
    buildPacket rom o r = .ok (framePacket (addressBytes o) (chunkPayload rom o r)) := by
  obtain ⟨v1, v2⟩ := (Image.valid_iff _).1 hv
  have e1 : ¬ (o : Int) % (Config.chunk : Nat) ≠ 0 := by
    simp only [Config.chunk]
    omega
  have e2 : ¬ (o : Int) + (Config.chunk : Nat) > rom.len := by
    simp only [Config.chunk]
    omega
  have e3 : ¬ (o : Int) < 0 := by omega
  simp only [buildPacket, if_neg e1, if_neg e2, if_neg e3, encodeAddress_ok (o := o) (by omega),
    Int.toNat_natCast]

/-- When PKT's functional rule succeeds, its checks hold and its packet is the one of R172. -/
theorem buildPacket_eq_ok {rom : Image} {o : Nat} {r : Bool} {p : List Byte}
    (h : buildPacket rom o r = .ok p) :
    o % 256 = 0 ∧ o + 256 ≤ rom.len ∧
      p = framePacket (addressBytes o) (chunkPayload rom o r) := by
  simp only [buildPacket, encodeAddress, Config.chunk, Int.toNat_natCast] at h
  split_ifs at h with h1 h2 h3
  · cases h
    exact ⟨by omega, by omega, rfl⟩

end Sys2Proof.Machine
end

