-- ==== Sys2Proof/Laws/Exec.lean ====
section
/-!
SUPPORT. What executing an instruction or a code can do, said once.
-/

namespace Sys2Proof.Machine

/-- Everything exec can answer as a next state. -/
theorem exec_cases {i : Instr} {s t : State} (h : exec i s = .next t) :
    (∃ o, i = .enc o ∧ ∃ r, t = s.setRsp (some r)) ∨
    (∃ b, i = .rev b ∧ ∃ r, t = s.setRsp (some r)) ∨
    (∃ o c, i = .sum o c ∧ ((∃ f, t = s.setRsp (some (.error f))) ∨
      ∃ v, t = (s.setAcc v).setRsp (some (.ok (byteResult v))))) ∨
    (∃ o r, i = .pkt o r ∧ s.rom.valid = true ∧
      ((∃ f, buildPacket s.rom o.toNat r = .error f ∧
        t = (s.setPktv false).setRsp (some (.error f))) ∨
      ∃ p, buildPacket s.rom o.toNat r = .ok p ∧
        t = respond 0#24 (storePacket p (zext o) r s))) ∨
    (∃ a p c, i = .packet5A a p c ∧ t = s.setLine (s.line ++ packetBytes a p c)) := by
  cases i with
  | enc o =>
    refine .inl ⟨o, rfl, ?_⟩
    simp only [exec, execEnc, runEnc] at h
    split at h <;> cases h <;> exact ⟨_, rfl⟩
  | rev b =>
    cases h
    exact .inr (.inl ⟨b, rfl, _, rfl⟩)
  | sum o c =>
    refine .inr (.inr (.inl ⟨o, c, rfl, ?_⟩))
    simp only [exec, execSum, runSum] at h
    split at h
    · cases h
      split
      · exact .inr ⟨_, rfl⟩
      · exact .inl ⟨_, rfl⟩
    · cases h
      exact .inl ⟨_, rfl⟩
  | pkt o r =>
    refine .inr (.inr (.inr (.inl ⟨o, r, rfl, ?_⟩)))
    simp only [exec, execPkt, runPkt, zext] at h
    split_ifs at h with hv
    refine ⟨hv, ?_⟩
    cases hb : buildPacket s.rom o.toNat r with
    | ok p =>
      rw [hb] at h
      cases h
      exact .inr ⟨p, rfl, rfl⟩
    | error f =>
      rw [hb] at h
      cases h
      exact .inl ⟨f, rfl, rfl⟩
  | packet5A a p c =>
    cases h
    exact .inr (.inr (.inr (.inr ⟨a, p, c, rfl, rfl⟩)))

/-- PKT on a chunk of a ROM image stores the packet of R172. -/
theorem exec_pkt_ok {s : State} {o : Offset} (r : Bool) (hv : s.rom.valid = true)
    (h1 : o.toNat % 256 = 0) (h2 : o.toNat + 256 ≤ s.rom.len) :
    exec (.pkt o r) s = .next (respond 0#24 (storePacket
      (framePacket (addressBytes o.toNat) (chunkPayload s.rom o.toNat r)) (zext o) r s)) := by
  simp only [exec, execPkt, runPkt, hv, if_true, zext, buildPacket_ok r hv h1 h2]

/-- A command word runs its instruction or is illegal (30_encoding.md R98). -/
theorem runCode_word (w : CommandWord) (s : State) :
    (∃ i, decodeWord w = .ok i ∧ runCode (.word w) s = exec i s) ∨
    ((∃ e, decodeWord w = .error e) ∧
      runCode (.word w) s = .next (s.setRsp (some (.error .illegalCommand)))) := by
  cases h : decodeWord w with
  | ok i => exact .inl ⟨i, rfl, by simp [runCode, decode, h]⟩
  | error e => exact .inr ⟨⟨e, rfl⟩, by simp [runCode, decode, h, runUndecoded, raise]⟩

/-- No command word is a wire packet. -/
theorem decodeWord_ne_packet (w : CommandWord) (a : Offset) (p : List Byte) (c : Byte) :
    decodeWord w ≠ .ok (.packet5A a p c) := by
  unfold decodeWord
  split_ifs <;> simp

/-- A code that runs leaves the ROM image, the host and the inputs alone. -/
theorem runCode_keeps {c : Code} {s t : State} (h : runCode c s = .next t) :
    t.rom = s.rom ∧ t.host = s.host ∧ t.inputs = s.inputs := by
  unfold runCode at h
  cases hd : decode c with
  | ok i =>
    rw [hd] at h
    obtain ⟨o, rfl, r, rfl⟩ | ⟨o, rfl, r, rfl⟩ | ⟨o, c, rfl, ⟨f, rfl⟩ | ⟨v, rfl⟩⟩ |
      ⟨o, r, rfl, -, ⟨f, -, rfl⟩ | ⟨p, -, rfl⟩⟩ | ⟨a, p, c, rfl, rfl⟩ := exec_cases h <;>
      simp [respond, storePacket, setPacketValid]
  | error e =>
    rw [hd] at h
    cases c with
    | word w =>
      cases h
      exact ⟨rfl, rfl, rfl⟩
    | frame b => cases h

/-- A frame that runs goes on the line and changes nothing else. -/
theorem runCode_frame {b : List Byte} {s t : State} (h : runCode (.frame b) s = .next t) :
    ∃ l, t = s.setLine (s.line ++ l) := by
  simp only [runCode, decode, decodeFrame] at h
  split_ifs at h
  · cases h
  · cases h
  · cases h
    exact ⟨_, rfl⟩

end Sys2Proof.Machine
end

