-- ==== Sys2Proof/Laws/Step.lean ====
section
/-!
SUPPORT. What a step can do to the block, said once, from which each invariant of the block follows by cases.
-/

namespace Sys2Proof.Machine

/-- What one step can do to PKT, PKTV, OFF, REVEN and the ROM image. -/
inductive BlockMove (s t : State) : Prop where
  /-- Nothing. -/
  | same (pkt : t.pkt = s.pkt) (pktv : t.pktv = s.pktv) (off : t.off = s.off)
      (reven : t.reven = s.reven) (rom : t.rom = s.rom)
  /-- A PKT failed. -/
  | failed (pkt : t.pkt = s.pkt) (pktv : t.pktv = false) (off : t.off = s.off)
      (reven : t.reven = s.reven) (rom : t.rom = s.rom)
  /-- A PKT built its packet. -/
  | built (offset : Offset) (rev : Bool) (p : List Byte) (valid : s.rom.valid = true)
      (packet : buildPacket s.rom offset.toNat rev = .ok p) (pkt : t.pkt = Memory.ofBytes p)
      (pktv : t.pktv = true) (off : t.off = offset) (reven : t.reven = rev) (rom : t.rom = s.rom)
  /-- The reset input. -/
  | reset (pkt : t.pkt = []) (pktv : t.pktv = false) (off : t.off = 0#24) (reven : t.reven = false)
      (rom : t.rom = s.rom)
  /-- A LOAD outside a session. -/
  | loaded (file : List Byte) (idle : s.host.phase.active = false)
      (image : loadImage file = .ok t.rom) (pkt : t.pkt = s.pkt) (pktv : t.pktv = s.pktv)
      (off : t.off = s.off) (reven : t.reven = s.reven)

/-- Only the fields it names matter to a move. -/
theorem BlockMove.congr {s s' t t' : State} (h : BlockMove s t) (h1 : s'.pkt = s.pkt)
    (h2 : s'.pktv = s.pktv) (h3 : s'.off = s.off) (h4 : s'.reven = s.reven) (h5 : s'.rom = s.rom)
    (h6 : s'.host.phase.active = s.host.phase.active) (k1 : t'.pkt = t.pkt) (k2 : t'.pktv = t.pktv)
    (k3 : t'.off = t.off) (k4 : t'.reven = t.reven) (k5 : t'.rom = t.rom) : BlockMove s' t' := by
  cases h with
  | same a b c d e => exact .same (by simp_all) (by simp_all) (by simp_all) (by simp_all) (by simp_all)
  | failed a b c d e =>
    exact .failed (by simp_all) (by simp_all) (by simp_all) (by simp_all) (by simp_all)
  | built o r p v b c d e f g =>
    exact .built o r p (by simp_all) (by simp_all) (by simp_all) (by simp_all) (by simp_all)
      (by simp_all) (by simp_all)
  | reset a b c d e =>
    exact .reset (by simp_all) (by simp_all) (by simp_all) (by simp_all) (by simp_all)
  | loaded f i m a b c d =>
    exact .loaded f (by simp_all) (by simp_all) (by simp_all) (by simp_all) (by simp_all) (by simp_all)

theorem exec_move {i : Instr} {s t : State} (h : exec i s = .next t) : BlockMove s t := by
  obtain ⟨o, rfl, r, rfl⟩ | ⟨o, rfl, r, rfl⟩ | ⟨o, c, rfl, ⟨f, rfl⟩ | ⟨v, rfl⟩⟩ |
    ⟨o, r, rfl, hv, ⟨f, -, rfl⟩ | ⟨p, hb, rfl⟩⟩ | ⟨a, p, c, rfl, rfl⟩ := exec_cases h
  · exact .same rfl rfl rfl rfl rfl
  · exact .same rfl rfl rfl rfl rfl
  · exact .same rfl rfl rfl rfl rfl
  · exact .same rfl rfl rfl rfl rfl
  · exact .failed rfl rfl rfl rfl rfl
  · exact .built o r p hv hb rfl rfl (low24_zext o) rfl rfl
  · exact .same rfl rfl rfl rfl rfl

theorem runCode_move {c : Code} {s t : State} (h : runCode c s = .next t) : BlockMove s t := by
  unfold runCode at h
  cases hd : decode c with
  | ok i =>
    rw [hd] at h
    exact exec_move h
  | error e =>
    rw [hd] at h
    cases c with
    | word w =>
      cases h
      exact .same rfl rfl rfl rfl rfl
    | frame b => cases h

theorem issuePacket_move {i : Nat} {p : Phase} {s t : State} (h : issuePacket i p s = .next t) :
    BlockMove s t := by
  unfold issuePacket at h
  split at h
  · rename_i u hu
    split at h <;> cases h <;>
      exact (runCode_move hu).congr rfl rfl rfl rfl rfl rfl rfl rfl rfl rfl rfl
  · cases h
  · cases h

theorem startSending_move {i : Nat} {s t : State} (h : startSending i s = .next t) :
    BlockMove s t := by
  unfold startSending at h
  split at h
  · exact issuePacket_move h
  · cases h
    exact .same rfl rfl rfl rfl rfl

/-- Sending the packet writes the line and the phase. -/
theorem sendPacket_cases {i : Nat} {s t : State} (h : sendPacket i s = .next t) :
    ∃ l, t = setPhase (.awaitingAck i) (s.setLine (s.line ++ l)) := by
  unfold sendPacket at h
  split at h
  · rename_i u hu
    obtain ⟨l, rfl⟩ := runCode_frame hu
    cases h
    exact ⟨l, rfl⟩
  · cases h
  · cases h

/-- A transmission sends the packet, or builds it and sends it, or aborts. -/
theorem transmit_cases {i : Nat} {s t : State} (h : transmit i s = .next t) :
    (s.pktv = true ∧ s.host.packetHeld = true ∧ sendPacket i s = .next t) ∨
    (∃ u, issuePacket i s.host.phase s = .next u ∧
      ((u.pktv = true ∧ sendPacket i u = .next t) ∨ (u.pktv = false ∧ t = u))) := by
  unfold transmit at h
  split at h
  · rename_i hp
    rw [Bool.and_eq_true] at hp
    exact .inl ⟨hp.1, hp.2, h⟩
  · right
    split at h
    · rename_i u hu
      refine ⟨u, hu, ?_⟩
      split at h
      · rename_i hq
        exact .inl ⟨hq, h⟩
      · rename_i hq
        cases h
        exact .inr ⟨by simpa using hq, rfl⟩
    · cases h
    · cases h

theorem transmit_move {i : Nat} {s t : State} (h : transmit i s = .next t) : BlockMove s t := by
  obtain ⟨-, -, h⟩ | ⟨u, hu, ⟨-, h⟩ | ⟨-, rfl⟩⟩ := transmit_cases h
  · obtain ⟨l, rfl⟩ := sendPacket_cases h
    exact .same rfl rfl rfl rfl rfl
  · obtain ⟨l, rfl⟩ := sendPacket_cases h
    exact (issuePacket_move hu).congr rfl rfl rfl rfl rfl rfl rfl rfl rfl rfl rfl
  · exact issuePacket_move hu

/-- Taking a response changes at most the host's phase. -/
theorem takeResponse_eq (s : State) :
    takeResponse s = s ∨
      ∃ f, s.rsp = some (.error f) ∧ takeResponse s = setPhase (s.host.phase.abort f.errorClass) s := by
  unfold takeResponse
  split
  · rename_i f hf
    exact .inr ⟨f, hf, rfl⟩
  · exact .inl rfl

/-- Taking note of a packet changes at most what the host holds. -/
theorem notePacket_eq (i : Instr) (s : State) :
    notePacket i s = s ∨ ∃ b, notePacket i s = s.setHost { s.host with packetHeld := b } := by
  cases i with
  | pkt o r => exact .inr ⟨_, rfl⟩
  | _ => exact .inl rfl

/-- A code during a session runs as ever, and the host then takes note of the packet and of the response. -/
theorem runSessionCode_next {c : Code} {s t : State} (h : runSessionCode c s = .next t) :
    ∃ u, runCode c s = .next u ∧
      ((∃ i, decode c = .ok i ∧ sessionRefusal i = none ∧ t = takeResponse (notePacket i u)) ∨
        ((∃ e, decode c = .error e) ∧ t = takeResponse u)) := by
  unfold runSessionCode observed at h
  unfold runCode
  cases hd : decode c with
  | ok i =>
    simp only [hd] at h
    split at h
    · cases h
    · rename_i hr
      split at h
      · rename_i u hu
        cases h
        exact ⟨u, hu, .inl ⟨i, rfl, hr, rfl⟩⟩
      · cases h
      · cases h
  | error e =>
    simp only [hd] at h
    split at h
    · rename_i u hu
      cases h
      exact ⟨u, hu, .inr ⟨⟨e, rfl⟩, rfl⟩⟩
    · cases h
    · cases h

/-- What a code during a session leaves: what running it leaves, but for two fields of the host. -/
theorem runSessionCode_host {c : Code} {s t : State} (h : runSessionCode c s = .next t) :
    ∃ u, runCode c s = .next u ∧ ∃ b,
      (t = u.setHost { u.host with packetHeld := b } ∨
        t = u.setHost { u.host with packetHeld := b, phase := u.host.phase.abort .argumentError }) := by
  obtain ⟨u, hu, hc⟩ := runSessionCode_next h
  refine ⟨u, hu, ?_⟩
  have key (b : Bool) (v : State) (hv : v = u.setHost { u.host with packetHeld := b })
      (ht : t = takeResponse v) : ∃ b,
      (t = u.setHost { u.host with packetHeld := b } ∨
        t = u.setHost { u.host with packetHeld := b, phase := u.host.phase.abort .argumentError }) := by
    subst hv ht
    obtain e | ⟨f, -, e⟩ := takeResponse_eq (u.setHost { u.host with packetHeld := b })
    · exact ⟨b, .inl e⟩
    · exact ⟨b, .inr (e.trans rfl)⟩
  obtain ⟨i, -, -, ht⟩ | ⟨-, ht⟩ := hc
  · obtain e | ⟨b, e⟩ := notePacket_eq i u
    · exact key u.host.packetHeld _ e ht
    · exact key b _ e ht
  · exact key u.host.packetHeld u rfl ht

/-- What a code that comes in leaves: the ROM image, the inputs, and the host but for the note of its packet and an
abort of its session. -/
theorem runPortCode_keeps {c : Code} {s t : State} (h : runPortCode c s = .next t) :
    t.rom = s.rom ∧ t.inputs = s.inputs ∧ ∃ b, (t.host = { s.host with packetHeld := b } ∨
      t.host = { s.host with packetHeld := b, phase := s.host.phase.abort .argumentError }) := by
  unfold runPortCode at h
  split at h
  · obtain ⟨u, hu, b, rfl | rfl⟩ := runSessionCode_host h
    · obtain ⟨h1, h2, h3⟩ := runCode_keeps hu
      exact ⟨h1, h3, b, .inl (by simp [h2])⟩
    · obtain ⟨h1, h2, h3⟩ := runCode_keeps hu
      exact ⟨h1, h3, b, .inr (by simp [h2])⟩
  · obtain ⟨h1, h2, h3⟩ := runCode_keeps h
    exact ⟨h1, h3, s.host.packetHeld, .inl h2⟩

theorem runPortCode_move {c : Code} {s t : State} (h : runPortCode c s = .next t) :
    BlockMove s t := by
  unfold runPortCode at h
  split at h
  · obtain ⟨u, hu, b, rfl | rfl⟩ := runSessionCode_host h <;>
      exact (runCode_move hu).congr rfl rfl rfl rfl rfl rfl rfl rfl rfl rfl rfl
  · exact runCode_move h

theorem retryOrFail_block (i : Nat) (s : State) :
    (retryOrFail i s).pkt = s.pkt ∧ (retryOrFail i s).pktv = s.pktv ∧
      (retryOrFail i s).off = s.off ∧ (retryOrFail i s).reven = s.reven ∧
      (retryOrFail i s).rom = s.rom ∧ (retryOrFail i s).acc = s.acc ∧
      (retryOrFail i s).rsp = s.rsp ∧ (retryOrFail i s).line = s.line ∧
      (retryOrFail i s).inputs = s.inputs := by
  unfold retryOrFail
  split <;> exact ⟨rfl, rfl, rfl, rfl, rfl, rfl, rfl, rfl, rfl⟩

theorem retryOrFail_move (i : Nat) (s : State) : BlockMove s (retryOrFail i s) := by
  obtain ⟨a, b, c, d, e, -⟩ := retryOrFail_block i s
  exact .same a b c d e

/-- An event of a session moves the block by a PKT command at most; the phase is the one before it in the
state it starts from. -/
theorem runEvent_move {e : HostEvent} {s t : State} (h : runEvent e s = .next t) :
    BlockMove s t := by
  cases e <;> simp only [runEvent, runOpened, runOpenFailed, runWritten, runReplyEvent, runTimeout,
    runIoError, runReleased, runCancel] at h <;> try split at h
  all_goals try cases h
  all_goals try exact .same rfl rfl rfl rfl rfl
  all_goals try exact retryOrFail_move _ _
  all_goals try exact transmit_move h
  · have := startSending_move h
    cases this with
    | same a b c d e => exact .same a b c d e
    | failed a b c d e => exact .failed a b c d e
    | built o r p v b c d e f g => exact .built o r p v b c d e f g
    | reset a b c d e => exact .reset a b c d e
    | loaded f i m a b c d => exact .loaded f (by simpa using i) m a b c d
  · unfold runReply acknowledged at h
    split at h
    · have := startSending_move h
      cases this with
      | same a b c d e => exact .same a b c d e
      | failed a b c d e => exact .failed a b c d e
      | built o r p v b c d e f g => exact .built o r p v b c d e f g
      | reset a b c d e => exact .reset a b c d e
      | loaded f i m a b c d => exact .loaded f (by simpa using i) m a b c d
    · split at h <;> cases h
      · exact retryOrFail_move _ _
      · exact .same rfl rfl rfl rfl rfl

/-- Everything a step can do to the block. -/
theorem step_move {s t : State} (h : step s = .next t) : BlockMove s t := by
  unfold step nextInput at h
  split at h
  · cases h
    exact .same rfl rfl rfl rfl rfl
  · rename_i x rest hx
    have key : BlockMove (s.setInputs rest) t := by
      cases x with
      | code c => exact runPortCode_move h
      | reset =>
        cases h
        exact .reset rfl rfl rfl rfl rfl
      | readOut k =>
        simp only [handleInput, runReadOut] at h
        split at h
        · split at h <;> cases h
          exact .same rfl rfl rfl rfl rfl
        · cases h
      | load file =>
        simp only [handleInput, runLoad] at h
        split at h
        · cases h
        · rename_i ha
          split at h <;> cases h
          · rename_i hl
            exact .loaded file (by simpa using ha) hl rfl rfl rfl rfl
          · exact .same rfl rfl rfl rfl rfl
      | flash r ps =>
        simp only [handleInput, runFlash] at h
        split_ifs at h
        cases h
        exact .same rfl rfl rfl rfl rfl
      | event e => exact runEvent_move h
    exact key.congr rfl rfl rfl rfl rfl rfl rfl rfl rfl rfl rfl

end Sys2Proof.Machine
end

