-- ==== Sys2Proof/Laws/Host.lean ====
section
/-!
SUPPORT. What the operations of LOAD and FLASH answer, said once: the image of a good file, the packet command
of an index, entering Sending, a transmission, and one more step of a run.
-/

namespace Sys2Proof.Machine

/-- What LOAD answers when it answers an image (45_host_environment.md R201, R202). -/
theorem loadImage_ok {file : List Byte} {im : Image} (h : loadImage file = .ok im) :
    im = Image.ofBytes file ∧ im.valid = true := by
  unfold loadImage at h
  split_ifs at h with h1 h2
  cases h
  exact ⟨rfl, (Image.valid_iff _).2 ⟨by simpa [Config.chunk, Image.ofBytes] using h2,
    by simpa [Config.romMax, Image.ofBytes] using h1⟩⟩

/-- The state in which packet `i` of the session's image has been built. -/
def packetBuilt (i : Nat) (rev : Bool) (s : State) : State :=
  respond 0#24 (storePacket
    (framePacket (addressBytes (256 * i)) (chunkPayload s.rom (256 * i) rev))
    (zext (BitVec.ofNat 24 (256 * i))) rev s)

/-- The packet command of an index of the image builds its packet (45_host_environment.md R210). -/
theorem runCode_packetCommand {s : State} {i : Nat} (rev : Bool) (hv : s.rom.valid = true)
    (hi : i < s.rom.len / 256) :
    runCode (packetCommand i rev) s = .next (packetBuilt i rev s) := by
  obtain ⟨v1, v2⟩ := (Image.valid_iff _).1 hv
  have e : (BitVec.ofNat 24 (256 * i)).toNat = 256 * i := by
    simp only [BitVec.toNat_ofNat]
    omega
  have hd : decode (encode (.pkt (BitVec.ofNat 24 (256 * i)) rev)) =
      .ok (.pkt (BitVec.ofNat 24 (256 * i)) rev) := by
    cases rev <;> simp [encode, decode, decodeWord]
  have hx := exec_pkt_ok (s := s) (o := BitVec.ofNat 24 (256 * i)) rev hv (by rw [e]; omega)
    (by rw [e]; omega)
  rw [e] at hx
  simp only [runCode, packetCommand, Config.chunk, hd, hx, packetBuilt]

/-- The host's packet command, with an index of the image (45_host_environment.md R210). -/
theorem issuePacket_ok {s : State} {i : Nat} (p : Phase) (hv : s.rom.valid = true)
    (hi : i < s.rom.len / 256) :
    issuePacket i p s = .next ((packetBuilt i s.host.reverseBits s).setHost
      { s.host with phase := p, packetHeld := true }) := by
  unfold issuePacket
  rw [runCode_packetCommand _ hv hi]
  rfl

/-- What the host's packet command leaves: the ROM image, and the host in the phase asked for or closing. -/
theorem issuePacket_host {i : Nat} {p : Phase} {s t : State} (h : issuePacket i p s = .next t) :
    t.rom = s.rom ∧ (t.host = { s.host with phase := p, packetHeld := true } ∨
      t.host = { s.host with phase := .closing (.failure .argumentError) }) := by
  unfold issuePacket at h
  split at h
  · rename_i u hu
    obtain ⟨a, b, c⟩ := runCode_keeps hu
    split at h <;> cases h
    · exact ⟨a, .inr (by simp [setPhase, b, Failure.errorClass])⟩
    · exact ⟨a, .inl (by simp [b])⟩
  · cases h
  · cases h

/-- Entering Sending(i) for an index of the image (45_host_environment.md R210). -/
theorem startSending_ok {s : State} {i : Nat} (hv : s.rom.valid = true)
    (hi : i < s.rom.len / 256) :
    startSending i s = .next ((packetBuilt i s.host.reverseBits s).setHost
      { s.host with phase := .sending i, packetHeld := true }) := by
  unfold startSending
  rw [if_pos (by exact hi), issuePacket_ok _ hv hi]

/-- Past the last index the session closes with success (45_host_environment.md R211). -/
theorem startSending_end {s : State} {i : Nat} (hi : s.rom.len / 256 ≤ i) :
    startSending i s = .next (setPhase (.closing .success) s) := by
  unfold startSending
  rw [if_neg (by simp only [Config.chunk]; omega)]

/-- What entering Sending(i) leaves: the ROM image, and the host in one of three phases. -/
theorem startSending_host {i : Nat} {s t : State} (h : startSending i s = .next t) :
    t.rom = s.rom ∧ ∃ p b, t.host = { s.host with phase := p, packetHeld := b } ∧
      ((i < s.rom.len / 256 ∧ (p = .sending i ∨ ∃ r, p = .closing r)) ∨
        (s.rom.len / 256 ≤ i ∧ p = .closing .success)) := by
  unfold startSending at h
  split at h
  · rename_i hi
    obtain ⟨a, b | b⟩ := issuePacket_host h
    · exact ⟨a, _, _, b, .inl ⟨hi, .inl rfl⟩⟩
    · exact ⟨a, _, _, b, .inl ⟨hi, .inr ⟨_, rfl⟩⟩⟩
  · cases h
    rename_i hi
    exact ⟨rfl, _, _, rfl, .inr ⟨Nat.le_of_not_lt hi, rfl⟩⟩

/-- A frame of 261 bytes that starts with `0x5A` goes on the line as it is (30_encoding.md R81). -/
theorem runCode_frame_ok {l : List Byte} (hl : l.length = 261) (h0 : l.getD 0 0#8 = 0x5A#8)
    (s : State) : runCode (.frame l) s = .next (s.setLine (s.line ++ l)) := by
  have hd : decode (.frame l) = .ok (.packet5A (l.getD 1 0#8 ++ l.getD 2 0#8 ++ l.getD 3 0#8)
      ((l.drop 4).take 256) (l.getD 260 0#8)) := by
    simp only [decode, decodeFrame, Config.pktLen, Config.cmdOpcode, hl, h0]
    rfl
  have hb : packetBytes (l.getD 1 0#8 ++ l.getD 2 0#8 ++ l.getD 3 0#8) ((l.drop 4).take 256)
      (l.getD 260 0#8) = l := by
    have key (a b c : Byte) : (a ++ b ++ c).extractLsb' 16 8 = a ∧
        (a ++ b ++ c).extractLsb' 8 8 = b ∧ (a ++ b ++ c).extractLsb' 0 8 = c := by
      refine ⟨?_, ?_, ?_⟩ <;> ext i hi <;>
        simp only [BitVec.getElem_extractLsb', BitVec.getLsbD_append]
      · rw [if_neg (by omega), if_neg (by omega), show 16 + i - 8 - 8 = i by omega,
          BitVec.getLsbD_eq_getElem hi]
      · rw [if_neg (by omega), if_pos (by omega), show 8 + i - 8 = i by omega,
          BitVec.getLsbD_eq_getElem hi]
      · rw [if_pos (by omega), show 0 + i = i by omega, BitVec.getLsbD_eq_getElem hi]
    obtain ⟨k1, k2, k3⟩ := key (l.getD 1 0#8) (l.getD 2 0#8) (l.getD 3 0#8)
    match l, hl with
    | a :: b :: c :: d :: l, hl =>
      have h4 : l.length = 257 := by simpa using hl
      simp only [packetBytes, k1, k2, k3, List.drop_succ_cons, List.drop_zero]
      simp only [List.getD_cons_zero] at h0
      simp only [List.getD_cons_succ, List.getD_cons_zero, h0, Config.cmdOpcode]
      congr 4
      rw [List.getD_eq_getElem?_getD, List.getElem?_eq_getElem (by omega), Option.getD_some]
      conv_rhs => rw [← List.take_append_drop 256 l]
      congr 1
      rw [List.drop_eq_getElem_cons (by omega), List.drop_eq_nil_of_le (by omega)]
  simp only [runCode, hd, exec, execPacket5A, sendBytes, hb]

/-- Sending a packet that starts with `0x5A` (43_packet_formatter.md R182). -/
theorem sendPacket_ok {s : State} (i : Nat) (h0 : Memory.read s.pkt 0 = 0x5A#8) :
    sendPacket i s = .next (setPhase (.awaitingAck i) (s.setLine (s.line ++ pktBytes s))) := by
  have h1 : (pktBytes s).getD 0 0#8 = 0x5A#8 := h0
  unfold sendPacket
  rw [runCode_frame_ok (by simp [pktBytes, Config.pktLen]) h1]

/-- A transmission of the packet the host holds, starting with `0x5A` (45_host_environment.md R214). -/
theorem transmit_ok {s : State} (i : Nat) (hp : s.pktv = true) (hh : s.host.packetHeld = true)
    (h0 : Memory.read s.pkt 0 = 0x5A#8) :
    transmit i s = .next (setPhase (.awaitingAck i) (s.setLine (s.line ++ pktBytes s))) := by
  unfold transmit
  rw [if_pos (by rw [hp, hh]; rfl), sendPacket_ok i h0]

/-- The bytes of a packet that was just built. -/
theorem pktBytes_of_pkt {s : State} {p : List Byte} (h : s.pkt = Memory.ofBytes p)
    (hl : p.length = 261) : pktBytes s = p := by
  rw [pktBytes, h, Config.pktLen, ← hl]
  exact Memory.slice_ofBytes_all p

/-- A transmission when the host does not hold the packet issues its command first (45_host_environment.md R214). -/
theorem transmit_again {s : State} {i : Nat} (hp : (s.pktv && s.host.packetHeld) = false)
    (hv : s.rom.valid = true) (hi : i < s.rom.len / 256) :
    transmit i s = .next (setPhase (.awaitingAck i) (((packetBuilt i s.host.reverseBits s).setHost
      { s.host with packetHeld := true }).setLine (s.line ++ framePacket (addressBytes (256 * i))
        (chunkPayload s.rom (256 * i) s.host.reverseBits)))) := by
  have h0 : Memory.read ((packetBuilt i s.host.reverseBits s).setHost
      { s.host with packetHeld := true }).pkt 0 = 0x5A#8 := by
    show Memory.read (Memory.ofBytes _) 0 = _
    rw [Memory.read_ofBytes]
    rfl
  have hb : pktBytes ((packetBuilt i s.host.reverseBits s).setHost
      { s.host with packetHeld := true }) =
      framePacket (addressBytes (256 * i)) (chunkPayload s.rom (256 * i) s.host.reverseBits) :=
    pktBytes_of_pkt rfl ((length_framePacket _ _).trans (by simp))
  unfold transmit
  rw [if_neg (by simp only [hp]; exact Bool.false_ne_true), issuePacket_ok _ hv hi]
  show (if _ then _ else _) = _
  rw [if_pos (by rfl), sendPacket_ok i h0, hb]
  rfl

/-- What a transmission leaves: the ROM image, and the host awaiting the acknowledgment, or closing, or, where
the packet could not be had, in its phase. -/
theorem transmit_host {i : Nat} {s t : State} (h : transmit i s = .next t) :
    t.rom = s.rom ∧ ∃ p b, t.host = { s.host with phase := p, packetHeld := b } ∧
      (p = .awaitingAck i ∨ p = .closing (.failure .argumentError) ∨ p = s.host.phase) := by
  obtain ⟨-, -, h⟩ | ⟨u, hu, ⟨-, h⟩ | ⟨-, rfl⟩⟩ := transmit_cases h
  · obtain ⟨l, rfl⟩ := sendPacket_cases h
    exact ⟨rfl, _, _, rfl, .inl rfl⟩
  · obtain ⟨a, b | b⟩ := issuePacket_host hu <;> obtain ⟨l, rfl⟩ := sendPacket_cases h
    · exact ⟨a, _, true, by simp only [setPhase, State.setHost_host, State.setLine_host, b], .inl rfl⟩
    · exact ⟨a, _, s.host.packetHeld,
        by simp only [setPhase, State.setHost_host, State.setLine_host, b], .inl rfl⟩
  · obtain ⟨a, b | b⟩ := issuePacket_host hu
    · exact ⟨a, _, _, b, .inr (.inr rfl)⟩
    · exact ⟨a, _, _, b, .inr (.inl rfl)⟩

/-- One step of a run, then the rest. -/
theorem run_succ_of_next (M : Host.Core) (k : Nat) (s t : M.State) (h : M.step s = .next t) :
    M.run (k + 1) s = M.run k t := by
  simp only [Host.Core.run, h]

/-- One step of a run of this machine. -/
theorem run_core_succ {k : Nat} {s t : State} (h : step s = .next t) :
    Host.Core.run Sys2Proof.core (k + 1) s = Host.Core.run Sys2Proof.core k t :=
  run_succ_of_next Sys2Proof.core k s t h

end Sys2Proof.Machine
end

