-- ==== Sys2Proof/Laws/PerInstr.lean ====
section
/-!
SUPPORT. Per instruction: its code matches its row of the opcode table (30_encoding.md R81, R90).
-/

namespace Sys2Proof.Laws.RowMatch

/-- The code of the instruction matches the match and mask of its row of the table, and has the row's length. -/
def Statement : Instr → Prop
  | .enc offset => ∃ w, encode (.enc offset) = .word w ∧ w &&& 0xFFF000000#36 = 0x000000000#36
  | .rev b => ∃ w, encode (.rev b) = .word w ∧ w &&& 0xFFFFFFF00#36 = 0x400000000#36
  | .sum offset count =>
    ∃ w, encode (.sum offset count) = .word w ∧ w &&& 0xE00000000#36 = 0x800000000#36
  | .pkt offset rev =>
    ∃ w, encode (.pkt offset rev) = .word w ∧ w &&& 0xDFF000000#36 = 0xC00000000#36
  | .packet5A addr payload checksum =>
    (Instr.packet5A addr payload checksum).wellFormed = true →
      ∃ b, encode (.packet5A addr payload checksum) = .frame b ∧ b.length = 261 ∧ b.head? = some 0x5A#8

/-- `packWord` masked field by field. -/
theorem packWord_and (op op' : BitVec 2) (rev rev' : BitVec 1) (count count' : BitVec 9)
    (arg arg' : Offset) :
    packWord op rev count arg &&& packWord op' rev' count' arg' =
      packWord (op &&& op') (rev &&& rev') (count &&& count') (arg &&& arg') := by
  show ((op ++ rev ++ count ++ arg : BitVec (2 + 1 + 9 + 24)) &&&
    (op' ++ rev' ++ count' ++ arg')) = _
  rw [BitVec.and_append, BitVec.and_append, BitVec.and_append]
  rfl

theorem enc (offset : Offset) : Statement (.enc offset) := by
  refine ⟨_, rfl, ?_⟩
  rw [show 0xFFF000000#36 = packWord 3#2 1#1 511#9 0#24 by decide, packWord_and]
  simp [packWord]

theorem rev (b : Byte) : Statement (.rev b) := by
  refine ⟨_, rfl, ?_⟩
  rw [show 0xFFFFFFF00#36 = packWord 3#2 1#1 511#9 (0xFFFF#16 ++ 0x00#8) by decide, packWord_and,
    BitVec.and_append]
  simp [packWord]

theorem sum (offset : Offset) (count : BitVec 9) : Statement (.sum offset count) := by
  refine ⟨_, rfl, ?_⟩
  rw [show 0xE00000000#36 = packWord 3#2 1#1 0#9 0#24 by decide, packWord_and]
  simp [packWord]

theorem pkt (offset : Offset) (rev : Bool) : Statement (.pkt offset rev) := by
  refine ⟨_, rfl, ?_⟩
  rw [show 0xDFF000000#36 = packWord 3#2 0#1 511#9 0#24 by decide, packWord_and]
  simp [packWord]

theorem packet5A (addr : Offset) (payload : List Byte) (checksum : Byte) :
    Statement (.packet5A addr payload checksum) := by
  intro h
  have hp : payload.length = 256 := by simpa [Instr.wellFormed] using h
  exact ⟨_, rfl, by simp [length_packetBytes, hp], rfl⟩

end Sys2Proof.Laws.RowMatch
end

