-- ==== Sys2Proof/Laws/Serial.lean ====
section
/-!
SUPPORT. One byte of the byte-serial sequence of PKT: what it writes and what it keeps, and the sequence taken
from its end.
-/

namespace Sys2Proof.Machine

/-- What one byte of the sequence keeps (43_packet_formatter.md R180). -/
theorem serialByte_keeps (k : Nat) (s : State) :
    (serialByte k s).rom = s.rom ∧ (serialByte k s).off = s.off ∧
    (serialByte k s).reven = s.reven ∧ (serialByte k s).rsp = s.rsp ∧
    (serialByte k s).line = s.line ∧ (serialByte k s).host = s.host ∧
    (serialByte k s).inputs = s.inputs := by
  unfold serialByte
  simp only []
  split <;> exact ⟨rfl, rfl, rfl, rfl, rfl, rfl, rfl⟩

/-- What one byte of the sequence writes (43_packet_formatter.md R180). -/
theorem serialByte_writes (k : Nat) (s : State) :
    (serialByte k s).pkt = Memory.write s.pkt k (serialValue k s) ∧
    (serialByte k s).acc = serialAcc k s ∧
    (serialByte k s).pktv = (if k = 260 then true else s.pktv) := by
  unfold serialByte
  simp only []
  split <;> exact ⟨rfl, rfl, rfl⟩

/-- The sequence, its last byte apart. -/
theorem serialFrom_succ_last (n : Nat) (k : Nat) (s : State) :
    serialFrom k (n + 1) s = serialByte (k + n) (serialFrom k n s) := by
  induction n generalizing k s with
  | zero => rfl
  | succ n ih =>
    show serialFrom (k + 1) (n + 1) _ = _
    rw [ih, show k + 1 + n = k + (n + 1) by omega]
    rfl

/-- The sum of bytes with one byte more. -/
theorem accumulate_snoc (l : List Byte) (b : Byte) :
    accumulate (l ++ [b]) = accStep (accumulate l) b := by simp [accumulate]

/-- The accumulator as a number, from any start (42_checksum.md R156). -/
theorem toNat_foldl_accStep (l : List Byte) (a : Byte) :
    (l.foldl accStep a).toNat = (a.toNat + (l.map BitVec.toNat).sum) % 256 := by
  induction l generalizing a with
  | nil =>
    have := a.isLt
    simp
    omega
  | cons b l ih => simp [ih, accStep, BitVec.toNat_add]; omega

end Sys2Proof.Machine
end

