-- ==== Sys2Proof/Tests/Slice0.lean ====
section
/-!
SUPPORT. The model's own tests. Expected values are those of spec/95_test_vectors.md or read by hand off the rule
named; then, for each statement with hypotheses, a concrete state that meets them.
-/

namespace Sys2Proof.Tests

open Sys2Proof Sys2Proof.Machine

/-! ### Small states -/

/-- The next state of an outcome. -/
def nextOf (o : Host.Outcome State Fault Refusal) : Option State :=
  match o with
  | .next t => some t
  | _ => none

/-- The refusal of an outcome. -/
def refusalOf (o : Host.Outcome State Fault Refusal) : Option Refusal :=
  match o with
  | .refused r => some r
  | _ => none

/-- After reset, with these bytes as the session's image. -/
def withRom (bytes : List Byte) : State := State.reset.setRom (Image.ofBytes bytes)

/-- After reset, with an image of `n` zero bytes. -/
def withZeros (n : Nat) : State := State.reset.setRom ⟨n, []⟩

/-- 95_test_vectors.md 2.5: the first 256 bytes of ROM A. -/
def chunkA : List Byte := [0x01#8, 0x02#8, 0x03#8, 0xFF#8] ++ List.replicate 252 0x00#8

/-- The state after `PKT 0, 0` on 256 zero bytes (95_test_vectors.md S5). -/
def packetState : State := ((withZeros 256).setPkt [(0, 0x5A#8)]).setPktv true

/-- The packet state with a running session in this phase, the transport held. -/
def inPhase (p : Phase) (inputs : List Input) : State :=
  (packetState.setHost { HostSide.reset with
    phase := p, params := ⟨3, false, [[0x06#8]], [[0x15#8]]⟩, packetHeld := true, transportOpen := true }).setInputs inputs

/-! ### WellFormed -/

theorem test_wellFormed_packet :
    (Instr.packet5A 0#24 (List.replicate 256 0#8) 0#8).wellFormed = true := by decide +kernel

theorem test_illFormed_short_payload :
    (Instr.packet5A 0#24 (List.replicate 255 0#8) 0#8).wellFormed = false := by decide +kernel

theorem test_illFormed_long_payload :
    (Instr.packet5A 0#24 (List.replicate 257 0#8) 0#8).wellFormed = false := by decide +kernel

/-! ### Decoding words written out from the encodings (30_encoding.md R88, R90) -/

theorem test_decode_enc :
    decodeWord 0b00_0_000000000_000000010010001100000000#36 = .ok (.enc 0x012300#24) := by decide

theorem test_decode_rev :
    decodeWord 0b01_0_000000000_000000000000000000010010#36 = .ok (.rev 0x12#8) := by decide

theorem test_decode_sum :
    decodeWord 0b10_0_100000011_000000000000000000000001#36 = .ok (.sum 1#24 259#9) := by decide

theorem test_decode_pkt_reversed :
    decodeWord 0b11_1_000000000_000000000000000100000000#36 = .ok (.pkt 256#24 true) := by decide

theorem test_decode_pkt_plain :
    decodeWord 0b11_0_000000000_000011111111111100000000#36 = .ok (.pkt 0x0FFF00#24 false) := by
  decide

theorem test_decode_packet :
    decodeFrame ([0x5A#8, 0x00#8, 0x01#8, 0x00#8] ++ List.replicate 256 0x0F#8 ++ [0x01#8]) =
      .ok (.packet5A 0x000100#24 (List.replicate 256 0x0F#8) 0x01#8) := by decide +kernel

theorem test_decode_illegal :
    decodeWord 0x400000100#36 = .error .revArgHigh ∧ decodeWord 0x600000000#36 = .error .revReserved ∧
    decodeWord 0x200000000#36 = .error .encReserved ∧ decodeWord 0xA01000000#36 = .error .sumReserved ∧
    decodeWord 0xC01000000#36 = .error .pktReserved := by decide

theorem test_decode_table_word :
    decodeTableWord 36 0xE00000100 = some (.pkt 256#24 true) ∧ decodeTableWord 36 (2 ^ 36) = none ∧
    decodeTableWord 2088 (0x5A * 2 ^ 2080) =
      some (.packet5A 0#24 (List.replicate 256 0#8) 0#8) := by decide +kernel

/-! ### One operation each (95_test_vectors.md sections 2 and 3) -/

/-- 2.1: the boundary is accepted. -/
theorem test_enc_boundary :
    (nextOf (exec (.enc 0x100000#24) State.reset)).map State.rsp = some (some (.ok 0x100000#24)) := by
  decide

/-- 2.1: one above the boundary. -/
theorem test_enc_above :
    ((nextOf (exec (.enc 0x100001#24) State.reset)).bind State.rsp).map Response.pack =
      some (1#3 ++ 2#2 ++ 0#24) := by decide

/-- 2.2: `REV C4` is `23`. -/
theorem test_rev : (nextOf (exec (.rev 0xC4#8) State.reset)).map State.rsp =
    some (some (.ok 0x000023#24)) := by decide

/-- 2.3: SUM over three bytes, wrapping, and its first failing check. -/
theorem test_sum_functional :
    (runSum (Image.ofBytes [0xFF#8, 0xFF#8]) 0 2 State.reset).acc = 0xFE#8 ∧
    (runSum (Image.ofBytes [0x01#8, 0x02#8, 0x03#8]) (-1) 0 State.reset).rsp =
      some (.error .sumOffsetNegative) ∧
    (runSum (Image.ofBytes [0x01#8, 0x02#8, 0x03#8]) 5 0 State.reset).rsp =
      some (.error .sumCountNotPositive) := by decide

/-- 2.4: the whole buffer, then the range past its end. -/
theorem test_sum_port :
    ((nextOf (exec (.sum 0#24 261#9) packetState)).bind State.rsp) = some (.ok 0x5A#24) ∧
    ((nextOf (exec (.sum 1#24 261#9) packetState)).bind State.rsp) = some (.error .sumPastEnd) := by
  decide +kernel

/-- 2.5: `PKT 0, 1` on ROM A. -/
theorem test_pkt_reversed :
    (nextOf (exec (.pkt 0#24 true) (withRom chunkA))).map (fun t => (pktBytes t).take 9) =
      some [0x5A#8, 0#8, 0#8, 0#8, 0x80#8, 0x40#8, 0xC0#8, 0xFF#8, 0x00#8] ∧
    (nextOf (exec (.pkt 0#24 true) (withRom chunkA))).map (fun t => (Memory.read t.pkt 260, t.acc)) =
      some (0x7F#8, 0x7F#8) := by decide +kernel

/-- Program 3, step 13: a failed PKT clears PKTV and nothing else. -/
theorem test_pkt_failed :
    nextOf (exec (.pkt 256#24 false) packetState) =
      some ((packetState.setPktv false).setRsp (some (.error .pktPastEnd))) := by decide +kernel

/-- 30_encoding.md R81: a packet goes on the line byte 0 first. -/
theorem test_packet_on_the_line :
    (nextOf (exec (.packet5A 0x000100#24 (List.replicate 256 0x0F#8) 0x01#8) State.reset)).map State.line =
      some ([0x5A#8, 0x00#8, 0x01#8, 0x00#8] ++ List.replicate 256 0x0F#8 ++ [0x01#8]) := by
  decide +kernel

/-- Program 3, step 9: an illegal word leaves PKTV as it is. -/
theorem test_illegal_word :
    nextOf (runCode (.word 0x400000100#36) packetState) =
      some (packetState.setRsp (some (.error .illegalCommand))) := by decide +kernel

/-- R95: a frame with another first byte has no meaning. -/
theorem test_undefined_packet :
    refusalOf (runCode (.frame (0x5B#8 :: List.replicate 260 0#8)) State.reset) =
      some .undefinedPacket := by decide +kernel

/-- A placed word is run by the very next step. -/
theorem test_step_runs_placed_word :
    (nextOf (step (State.reset.withFetchWord 36 0x40000000F))).map State.rsp =
      some (some (.ok 0x0000F0#24)) := by decide

/-- R270, R271: reset after a packet was built. -/
theorem test_reset :
    (nextOf (step (packetState.setInputs [.reset]))).map (fun t => (t.pktv, t.pkt, t.rom.len)) =
      some (false, [], 256) := by decide

/-- 95_test_vectors.md 2.6: LOAD of 1, 255 and 300 bytes, of none, and of 256. -/
theorem test_load :
    (loadImage (List.replicate 1 0#8)).isOk = false ∧ (loadImage (List.replicate 255 0#8)).isOk = false ∧
    loadImage (List.replicate 300 0#8) = .error .misalignedImage ∧ loadImage [] = .ok ⟨0, []⟩ ∧
    loadImage (List.replicate 256 0#8) = .ok ⟨256, []⟩ := by decide +kernel

/-- R211: the acknowledgment of the last packet closes the session with success. -/
theorem test_last_acknowledgment :
    (nextOf (step (inPhase (.awaitingAck 0) [.event (.reply [0x06#8])]))).map
      (fun t => (t.host.phase, t.host.progress)) = some (.closing .success, 1) := by decide

/-- R212: a negative acknowledgment. -/
theorem test_negative_acknowledgment :
    (nextOf (step (inPhase (.awaitingAck 0) [.event (.reply [0x15#8])]))).map
      (fun t => (t.host.phase, t.host.resends)) = some (.retrying 0, 1) := by decide

/-- R218: a packet from elsewhere during a session. -/
theorem test_packet_in_a_session :
    refusalOf (step (inPhase (.awaitingAck 0)
      [.code (.frame (0x5A#8 :: List.replicate 260 0#8))])) = some .transportOwned := by decide +kernel

/-- R243, R258, R277: `PKT 256, 0` while packet 0 of a larger image is in flight is answered with its packet in the
buffer, and packet 0 can no longer be resent by re-reading. -/
theorem test_other_packet_in_flight :
    (nextOf (step ((inPhase (.awaitingAck 0) [.code (.word 0xC00000100#36)]).setRom ⟨512, []⟩))).map
      (fun t => (t.rsp, t.off, Memory.slice t.pkt 0 4, t.host.phase, t.host.packetHeld)) =
      some (some (.ok 0#24), 256#24, [0x5A#8, 0x00#8, 0x01#8, 0x00#8], .awaitingAck 0, false) := by
  decide +kernel

/-- R214, R277: after that the resend of packet 0 issues its PKT again first. -/
theorem test_resend_after_other_packet :
    (nextOf (step ((inPhase (.retrying 0) [.event .written]).setHost
      { (inPhase (.retrying 0) []).host with packetHeld := false }))).map
      (fun t => (t.rsp, t.line.take 4, t.host.phase, t.host.packetHeld)) =
      some (some (.ok 0#24), [0x5A#8, 0x00#8, 0x00#8, 0x00#8], .awaitingAck 0, true) := by
  decide +kernel

/-! ### Witnesses: a concrete input for the hypotheses of each statement -/

theorem wit_resetInput : (packetState.setInputs [.reset]).inputs = .reset :: [] := rfl

theorem wit_encFunctional :
    (-1 : Int) < 0 ∧ (1048576 : Int) < 1048577 ∧ (0 : Int) ≤ 1048576 ∧ (1048576 : Int) ≤ 1048576 ∧
    (0 : Int) ≤ 0 := by decide

theorem wit_encCommand :
    (0x100000#24).toNat ≤ 1048576 ∧ 1048576 < (0x100001#24).toNat := by decide

theorem wit_encCounters : 1048576 ≤ 1048576 ∧ 4096 ≤ 4096 := by decide

theorem wit_revPort :
    (0x4000000FF#36).extractLsb' 34 2 = 0b01#2 ∧ (0x4000000FF#36).extractLsb' 8 26 = 0#26 ∧
    (0x400000100#36).extractLsb' 34 2 = 0b01#2 ∧ (0x400000100#36).extractLsb' 8 26 ≠ 0#26 := by decide

theorem wit_sumCompletes :
    packetState.pktv = true ∧ 0 < (261#9).toNat ∧ (0#24).toNat + (261#9).toNat ≤ 261 ∧
    0 < (1#9).toNat ∧ (260#24).toNat + (1#9).toNat ≤ 261 := by decide

theorem wit_sumFails :
    State.reset.pktv = false ∧ packetState.pktv = true ∧ (0#9).toNat = 0 ∧ 0 < (1#9).toNat ∧
    261 < (261#24).toNat + (1#9).toNat := by decide

theorem wit_plainSum :
    0 < 2 ∧ 1 + 2 ≤ (Image.ofBytes [0x01#8, 0x02#8, 0x03#8]).len := by decide

/-- A list that holds every byte value once. -/
def everyByte : List Byte := (List.range 256).map (BitVec.ofNat 8)

theorem wit_everyByte : ∀ v : Byte, everyByte.count v = 1 := by
  intro v
  refine List.count_eq_one_of_mem (List.Nodup.map_on (fun x hx y hy h => ?_) List.nodup_range)
    (List.mem_map.2 ⟨v.toNat, List.mem_range.2 v.isLt, by simp⟩)
  have h' := congrArg BitVec.toNat h
  simp only [BitVec.toNat_ofNat, List.mem_range] at h' hx hy
  omega

theorem wit_equallyOften : ∀ v w : Byte, everyByte.count v = everyByte.count w :=
  fun v w => (wit_everyByte v).trans (wit_everyByte w).symm

theorem wit_checksumProperties :
    List.Perm [0x11#8, 0x22#8] [0x22#8, 0x11#8] ∧ 2 < (Image.ofBytes [0x01#8, 0x02#8, 0x03#8]).len := by
  decide

/-- The conditions of PKT, at both ends of the largest image. -/
theorem wit_pktRuns :
    PktRuns (withZeros 1048576) 0#24 ∧ PktRuns (withZeros 1048576) 0x0FFF00#24 ∧
    PktRuns (withRom chunkA) 0#24 := by decide +kernel

theorem wit_pktFunctional :
    (withZeros 512).rom.valid ∧ (257 : Int) % 256 ≠ 0 ∧
    (512 : Int) % 256 = 0 ∧ ((withZeros 512).rom.len : Int) < 512 + 256 ∧
    (-256 : Int) % 256 = 0 ∧ (-256 : Int) + 256 ≤ (withZeros 512).rom.len ∧ (-256 : Int) < 0 ∧
    (256 : Int) % 256 = 0 ∧ (256 : Int) + 256 ≤ (withZeros 512).rom.len ∧ (0 : Int) ≤ 256 := by decide

theorem wit_pktFails :
    packetState.rom.valid ∧
    ¬ ((256#24).toNat % 256 = 0 ∧ (256#24).toNat + 256 ≤ packetState.rom.len) ∧
    ¬ ((255#24).toNat % 256 = 0 ∧ (255#24).toNat + 256 ≤ packetState.rom.len) := by decide

theorem wit_brokenImage :
    (withZeros 255).rom.valid = false ∧ (withZeros 1048832).rom.valid = false := by decide

theorem wit_sameChunk :
    PktRuns (withRom (chunkA ++ chunkA)) 256#24 ∧
    PktRuns ((withZeros 256).setRom ⟨768, Memory.ofBytesFrom 256 chunkA⟩) 256#24 ∧
    ∀ j < 256, Memory.read (withRom (chunkA ++ chunkA)).rom.mem ((256#24).toNat + j) =
      Memory.read ((withZeros 256).setRom ⟨768, Memory.ofBytesFrom 256 chunkA⟩).rom.mem
        ((256#24).toNat + j) := by decide +kernel

/-- For every statement about the state that a PKT answers. -/
theorem wit_pktAnswers (rev : Bool) :
    PktRuns (withRom chunkA) 0#24 ∧ ∃ t, exec (.pkt 0#24 rev) (withRom chunkA) = .next t :=
  ⟨by decide +kernel, _, exec_pkt_ok rev (by decide +kernel) (by decide) (by decide +kernel)⟩

theorem wit_constantChunk :
    PktRuns (withRom (List.replicate 256 0x0F#8)) 0#24 ∧
    ∀ j < 256, Memory.read (withRom (List.replicate 256 0x0F#8)).rom.mem ((0#24).toNat + j) =
      0x0F#8 := by decide +kernel

theorem wit_selfReversed :
    PktRuns (withRom (List.replicate 256 0x5A#8)) 0#24 ∧
    ∀ j < 256, reverse (Memory.read (withRom (List.replicate 256 0x5A#8)).rom.mem ((0#24).toNat + j)) =
      Memory.read (withRom (List.replicate 256 0x5A#8)).rom.mem ((0#24).toNat + j) := by decide +kernel

theorem wit_serial :
    PktRuns packetState 0#24 ∧ Memory.wf packetState.pkt ∧ Memory.below packetState.pkt 261 ∧
    260 ≤ 260 := by decide

theorem wit_decodeOfEncode :
    (Instr.packet5A 0xFFFFFF#24 (List.replicate 256 0xFF#8) 0xFF#8).wellFormed = true := by decide +kernel

theorem wit_encodeOfDecode : decode (.word 0xBFFFFFFFF#36) = .error .sumReserved ∧
    decode (.word 0x9FFFFFFFF#36) = .ok (.sum 0xFFFFFF#24 511#9) := by decide

theorem wit_rows :
    0x000FFFFFF#36 &&& 0xFFF000000#36 = 0x000000000#36 ∧
    0x4000000FF#36 &&& 0xFFFFFFF00#36 = 0x400000000#36 ∧
    0x9FFFFFFFF#36 &&& 0xE00000000#36 = 0x800000000#36 ∧
    0xE00FFFFFF#36 &&& 0xDFF000000#36 = 0xC00000000#36 ∧
    0x001000000#36 &&& 0xFFF000000#36 ≠ 0x000000000#36 ∧
    0x001000000#36 &&& 0xFFFFFFF00#36 ≠ 0x400000000#36 ∧
    0x001000000#36 &&& 0xE00000000#36 ≠ 0x800000000#36 ∧
    0x001000000#36 &&& 0xDFF000000#36 ≠ 0xC00000000#36 := by decide

theorem wit_wirePacket : (List.replicate 256 0x0F#8).length = 256 := by decide +kernel

theorem wit_answered : (withZeros 0).rom.valid ∧ (withZeros 1048576).rom.valid := by decide

/-- An error that writes nothing and one that clears PKTV. -/
theorem wit_errors :
    (nextOf (runCode (.word 0x903000001#36) State.reset)).map State.rsp =
      some (some (.error .noPacket)) ∧
    (nextOf (runCode (.word 0xC00000080#36) packetState)).map State.rsp =
      some (some (.error .pktMisaligned)) ∧
    decodeWord 0xC00000080#36 = .ok (.pkt 128#24 false) := by decide +kernel

theorem wit_commandRuns (w : CommandWord) (h : w = 0x40000000F#36) :
    ∃ t, runCode (.word w) State.reset = .next t := by subst h; exact ⟨_, rfl⟩

theorem wit_execRuns :
    (nextOf (exec (.enc 0#24) State.reset)).isSome ∧ (nextOf (exec (.sum 0#24 1#9) packetState)).isSome ∧
    (nextOf (exec (.pkt 0#24 false) packetState)).isSome ∧
    (nextOf (exec (.packet5A 0#24 [] 0#8) State.reset)).isSome := by decide +kernel

theorem wit_stepDecodes :
    (packetState.setInputs [.code (.word 0x801000104#36)]).inputs = .code (.word 0x801000104#36) :: [] ∧
    decode (.word 0x801000104#36) = .ok (.sum 260#24 1#9) ∧ packetState.host.phase.active = false ∧
    (inPhase (.awaitingAck 0) []).host.phase.active = true ∧
    (nextOf (exec (.sum 260#24 1#9) (inPhase (.awaitingAck 0) []))).isSome ∧
    (nextOf (exec (.sum 260#24 0#9) (inPhase (.awaitingAck 0) []))).map State.rsp =
      some (some (.error .sumCountNotPositive)) ∧
    refusalOf (exec (.pkt 0#24 false) ((inPhase (.awaitingAck 0) []).setRom ⟨255, []⟩)) =
      some .romPremise := by decide +kernel

/-- PKT in a session: the packet in flight again, another offset, another flag, and no packet in flight. -/
theorem wit_sessionPkt :
    ownPacket (inPhase (.awaitingAck 0) []).host 0#24 false = true ∧
    (inPhase (.awaitingAck 0) []).host.phase.packetIndex = some 0 ∧
    ¬ (256#24 = BitVec.ofNat 24 (256 * 0) ∧ false = (inPhase (.awaitingAck 0) []).host.reverseBits) ∧
    ¬ (0#24 = BitVec.ofNat 24 (256 * 0) ∧ true = (inPhase (.awaitingAck 0) []).host.reverseBits) ∧
    ownPacket (inPhase .opening []).host 256#24 true = false := by decide

theorem wit_undefinedFrame :
    ¬ ((List.replicate 261 0x5B#8).length = 261 ∧ (List.replicate 261 0x5B#8).head? = some 0x5A#8) ∧
    ¬ ((List.replicate 260 0x5A#8).length = 261 ∧ (List.replicate 260 0x5A#8).head? = some 0x5A#8) := by
  decide +kernel

/-- An error in a session, and one in a session that is closing. -/
theorem wit_commandError :
    (nextOf (step (inPhase (.awaitingAck 0) [.code (.word 0x800000000#36)]))).map
      (fun t => (t.rsp, t.host.phase)) =
      some (some (.error .sumCountNotPositive), .closing (.failure .argumentError)) ∧
    (nextOf (step (inPhase (.closing (.failure .cancelled)) [.code (.word 0x800000000#36)]))).map
      (fun t => (t.rsp, t.host.phase)) =
      some (some (.error .sumCountNotPositive), .closing (.failure .cancelled)) := by decide +kernel

theorem wit_loadChangesRom :
    (nextOf (step (packetState.setInputs [.load []]))).map (fun t => t.rom.len) = some 0 ∧
    (nextOf (step (packetState.setInputs [.reset]))).map (fun t => t.rom.len) = some 256 := by decide

theorem wit_latches : AgreeButLatches packetState ((packetState.setAcc 0x77#8).setLatch 256#24 true) :=
  rfl

theorem wit_unreadable :
    AgreeButUnreadable (withZeros 256) ((withZeros 256).setPkt [(5, 0x01#8)]) := .inr ⟨rfl, rfl⟩

/-- A state with a valid packet meets the block's invariant, and steps. -/
theorem wit_blockInv : BlockInv (packetState.setInputs [.code (.word 0xC00000000#36)]) ∧
    (nextOf (step (packetState.setInputs [.code (.word 0xC00000000#36)]))).isSome :=
  ⟨⟨by decide, by decide, by decide, by decide,
    fun _ => ⟨by decide, by decide, by decide +kernel, by decide, by decide⟩⟩, by decide +kernel⟩

/-- A state of a running session meets the host's invariant, and steps. -/
theorem wit_hostInv : HostInv (inPhase (.sending 0) [.event .written]) ∧
    (nextOf (step (inPhase (.sending 0) [.event .written]))).isSome :=
  ⟨⟨by decide, by decide, by decide,
    fun _ _ => ⟨_, buildPacket_ok (o := 0) false rfl rfl (by decide), by decide +kernel⟩⟩, by decide +kernel⟩

/-- The same with nothing to read, as after a reset: the packet is built again and sent. -/
theorem wit_sendAgain :
    HostInv ((inPhase (.retrying 0) [.event .written]).setPktv false) ∧
    ((inPhase (.retrying 0) [.event .written]).setPktv false).rom.valid ∧
    (nextOf (step ((inPhase (.retrying 0) [.event .written]).setPktv false))).map
      (fun t => (t.host.phase, t.line.length, t.pktv)) = some (.awaitingAck 0, 261, true) :=
  ⟨⟨by decide, by decide, by decide, fun h => by cases h⟩, by decide, by decide +kernel⟩

theorem wit_readOut :
    (State.reset.setInputs [.readOut 0]).inputs = .readOut 0 :: [] ∧ State.reset.pktv = false ∧
    (packetState.setInputs [.readOut 261]).inputs = .readOut 261 :: [] ∧ packetState.pktv = true ∧
    261 ≤ 261 ∧ 260 < 261 := by decide

theorem wit_loadKeeps :
    loadImage (List.replicate 256 0xAB#8) = .ok (Image.ofBytes (List.replicate 256 0xAB#8)) := by
  decide +kernel

theorem wit_loadErrors :
    (State.reset.setInputs [.load [0x00#8]]).inputs = .load [0x00#8] :: [] ∧
    State.reset.host.phase.active = false ∧ loadImage [0x00#8] = .error .misalignedImage ∧
    1048576 < (List.replicate 1048577 0x00#8).length ∧
    (List.replicate 255 0x00#8).length ≤ 1048576 ∧ (List.replicate 255 0x00#8).length % 256 ≠ 0 ∧
    (List.replicate 256 0x00#8).length ≤ 1048576 ∧ (List.replicate 256 0x00#8).length % 256 = 0 ∧
    (inPhase .opening [.load []]).host.phase.active = true :=
  ⟨rfl, rfl, by decide, by rw [List.length_replicate]; decide, by decide +kernel, by decide +kernel,
    by decide +kernel, by decide +kernel, rfl⟩

theorem wit_flashBegins :
    packetState.host.phase = .idle ∧ 0 < (⟨1, true, [], []⟩ : HostParams).retryLimit ∧
    packetState.rom.valid ∧
    (nextOf (step (packetState.setInputs [.flash true ⟨1, true, [], []⟩]))).isSome := by decide

theorem wit_opening :
    (inPhase .opening [.event .opened]).host.phase = .opening ∧
    (inPhase .opening [.event .opened]).rom.valid ∧ 0 < (inPhase .opening []).rom.len ∧
    (inPhase .opening [.event .openFailed]).inputs = .event .openFailed :: [] ∧
    ((inPhase .opening []).setRom ⟨0, []⟩).rom.len = 0 ∧
    (inPhase (.closed .success) [.event .cancel]).host.phase = .closed .success := by decide

theorem wit_packetsOfFlash : packetState.rom.valid ∧ 0 < packetState.rom.len / 256 := by decide

theorem wit_acknowledged :
    [0x06#8] ∈ (inPhase (.awaitingAck 0) []).host.params.ackFrames ∧
    (inPhase (.awaitingAck 0) []).rom.valid ∧ packetState.rom.len / 256 ≤ 0 + 1 ∧
    0 + 1 < (withZeros 512).rom.len / 256 := by decide

theorem wit_retry :
    [0x15#8] ∉ (inPhase (.awaitingAck 0) []).host.params.ackFrames ∧
    [0x15#8] ∈ (inPhase (.awaitingAck 0) []).host.params.nakFrames ∧
    (inPhase (.awaitingAck 0) []).host.resends < (inPhase (.awaitingAck 0) []).host.params.maxResends ∧
    (⟨1, true, [], []⟩ : HostParams).maxResends ≤ 0 ∧
    (inPhase (.retrying 0) []).pktv = true ∧ (inPhase (.retrying 0) []).host.packetHeld = true ∧
    Memory.read (inPhase (.retrying 0) []).pkt 0 = 0x5A#8 := by
  decide

theorem wit_sessionEnds :
    (inPhase (.closing .success) [.event .released]).host.phase = .closing .success ∧
    (inPhase .opening [.event .cancel]).host.phase = .opening ∧
    (inPhase (.retrying 0) [.event .ioError]).host.phase = .retrying 0 ∧
    (inPhase .opening [.event .ioError]).host.phase = .opening ∧
    (inPhase (.closing .success) [.event .cancel]).host.phase = .closing .success ∧
    (inPhase (.closing (.failure .protocolError)) [.event .ioError]).host.phase =
      .closing (.failure .protocolError) := by decide

theorem wit_packetIndex :
    (inPhase (.retrying 0) [.event .written]).host.phase.packetIndex = some 0 ∧
    (nextOf (step (inPhase (.retrying 0) [.event .written]))).map (fun t => t.host.phase.packetIndex) =
      some (some 0) := by decide +kernel

/-- The schedule of a transport that always answers with a negative acknowledgment, three resends. -/
theorem wit_nakForever :
    let s := inPhase (.awaitingAck 0) ((List.replicate 3
      [Input.event (.reply [0x15#8]), Input.event .written]).flatten ++
      [Input.event (.reply [0x15#8]), Input.event .released])
    s.host.resends = 0 ∧ s.host.transportOpen = true ∧ s.pktv = true ∧ s.host.packetHeld = true ∧
    s.host.params.maxResends = 3 ∧ s.inputs.length = 8 := by decide

/-- The schedule of a FLASH of one packet. -/
theorem wit_wholeFlash :
    let s := inPhase .opening ([Input.event .opened] ++ (List.replicate 1
      [Input.event .written, Input.event (.reply [0x06#8])]).flatten ++ [Input.event .released])
    s.rom.valid ∧ s.host.phase = .opening ∧ [0x06#8] ∈ s.host.params.ackFrames ∧
    s.rom.len / 256 = 1 ∧ s.inputs.length = 4 := by decide

end Sys2Proof.Tests
end

section
/-!
The invariant of the block (10_state.md R26, R28), kept by every step, and the frame of every instruction
(10_state.md R36).
-/

namespace Sys2Proof.Machine

/-- What PKTV = 1 promises is a promise about PKT and OFF alone. -/
theorem PacketOk.congr {s t : State} (h : PacketOk s) (pkt : t.pkt = s.pkt) (off : t.off = s.off) :
    PacketOk t := by
  obtain ⟨command, address, checksum, aligned, inImage⟩ := h
  constructor <;> simpa only [pkt, off]

/-- A packet that PKT's functional rule builds has 261 bytes (30_encoding.md R81). -/
theorem length_of_buildPacket {rom : Image} {o : Nat} {r : Bool} {p : List Byte}
    (h : buildPacket rom o r = .ok p) : p.length = Config.pktLen := by
  obtain ⟨-, -, rfl⟩ := buildPacket_eq_ok h
  simp

/-- A packet that PKT's functional rule builds is what PKTV = 1 promises (43_packet_formatter.md R172 to R176). -/
theorem packetOk_of_buildPacket {rom : Image} {r : Bool} {p : List Byte} {t : State}
    (hv : rom.valid = true) (h : buildPacket rom t.off.toNat r = .ok p)
    (hp : t.pkt = Memory.ofBytes p) : PacketOk t := by
  obtain ⟨aligned, inRom, rfl⟩ := buildPacket_eq_ok h
  obtain ⟨-, romMax⟩ := (Image.valid_iff rom).1 hv
  refine ⟨?_, ?_, ?_, aligned, inRom.trans romMax⟩ <;> rw [hp]
  · exact Memory.read_ofBytes _ 0
  · simp only [Memory.read_ofBytes, addressBytes_offset]
    exact append_address_bytes t.off
  · rw [Memory.read_ofBytes, slice_framePacket _ _ (length_chunkPayload ..)]
    exact getD_framePacket_checksum _ _ (length_chunkPayload ..)

/-- Whatever a step can do to the block keeps its invariant. -/
theorem BlockMove.keeps_blockInv {s t : State} (h : BlockMove s t) (hs : BlockInv s) : BlockInv t := by
  obtain ⟨pktWf, pktBelow, romWf, romValid, packet⟩ := hs
  cases h with
  | same pkt pktv off _ rom =>
    exact ⟨pkt ▸ pktWf, pkt ▸ pktBelow, rom ▸ romWf, rom ▸ romValid,
      fun hv => (packet (pktv ▸ hv)).congr pkt off⟩
  | failed pkt pktv _ _ rom =>
    exact ⟨pkt ▸ pktWf, pkt ▸ pktBelow, rom ▸ romWf, rom ▸ romValid,
      fun hv => absurd hv (by simp [pktv])⟩
  | built offset rev p valid built pkt _ off _ rom =>
    subst off
    exact ⟨pkt ▸ Memory.wf_ofBytes p, pkt ▸ length_of_buildPacket built ▸ Memory.below_ofBytes p,
      rom ▸ romWf, rom ▸ romValid, fun _ => packetOk_of_buildPacket valid built pkt⟩
  | reset pkt pktv _ _ rom =>
    exact ⟨pkt ▸ Memory.wf_nil, pkt ▸ fun _ hc => absurd hc List.not_mem_nil, rom ▸ romWf,
      rom ▸ romValid, fun hv => absurd hv (by simp [pktv])⟩
  | loaded file _ image pkt pktv off _ =>
    obtain ⟨rom, valid⟩ := loadImage_ok image
    exact ⟨pkt ▸ pktWf, pkt ▸ pktBelow, rom ▸ Image.wf_ofBytes file, valid,
      fun hv => (packet (pktv ▸ hv)).congr pkt off⟩

/-- Settles O43: a step can do to the block only what `BlockMove` lists, and each of its moves keeps the
invariant. -/
theorem stepKeepsBlockInv : Obligations.StepKeepsBlockInv :=
  fun _ _ hs h => (step_move h).keeps_blockInv hs

/-- Settles O38, by the cases of `exec_cases`: the answers of each instruction as a next state. -/
theorem onlyListedOperationsWrite : Obligations.OnlyListedOperationsWrite := by
  intro i s t h
  obtain ⟨o, rfl, r, rfl⟩ | ⟨b, rfl, r, rfl⟩ | ⟨o, c, rfl, ⟨f, rfl⟩ | ⟨v, rfl⟩⟩ |
    ⟨o, r, rfl, -, ⟨f, -, rfl⟩ | ⟨p, -, rfl⟩⟩ | ⟨a, p, c, rfl, rfl⟩ := exec_cases h
  · simp
  · simp
  · simp
  · simp
  · simp
  · simp [respond, storePacket, setPacketValid]
  · simp

/-! The state after reset (10_state.md R35). -/

/-- Every byte is an address of LUT, whose entry is the reversed byte (41_bit_reversal.md R131). -/
theorem memRead_lut (b : Byte) (s : State) : memRead .lut b.toNat s = some (reverse b) := by
  simp [memRead, Config.lutDepth, b.isLt]

/-- Entry `b` of LUT is `b` with its bits in reverse order (41_bit_reversal.md R131, R132). -/
theorem getLsbD_reverse : ∀ b : Byte, ∀ i < 8, (reverse b).getLsbD i = b.getLsbD (7 - i) := by
  decide +kernel

/-- While PKTV = 0 every read-out is refused (10_state.md R22). -/
theorem runReadOut_unreadable {s : State} (h : s.pktv = false) (k : Nat) :
    runReadOut k s = .refused .packetUnreadable := by
  simp [runReadOut, h]

/-- Settles O1: the registers by evaluation, the read-outs by PKTV = 0, LUT entry by entry. -/
theorem stateAfterReset : Obligations.StateAfterReset :=
  ⟨rfl, rfl, rfl, rfl, runReadOut_unreadable rfl,
    fun b i hi => ⟨reverse b, memRead_lut b _, getLsbD_reverse b i hi⟩⟩

/-- Settles O45: both memories are empty, PKTV is 0, and no session has begun. -/
theorem resetMeetsTheInvariants : Obligations.ResetMeetsTheInvariants := by
  obtain ⟨pktWf, romWf⟩ := State.reset_memory_wf
  exact ⟨⟨pktWf, fun _ hc => absurd hc List.not_mem_nil, romWf, rfl, fun hv => absurd hv Bool.false_ne_true⟩,
    Nat.zero_le _, rfl⟩

end Sys2Proof.Machine
end

section
/-!
What no step can observe: the latches ACC, OFF and REVEN (10_state.md R23 to R25), and the bytes of PKT while
PKTV = 0 (R22). One relation hides either or both, and every operation of the machine keeps it.
-/

namespace Sys2Proof.Machine

/-- The states agree in everything, but for ACC, OFF and REVEN if `latches`, and for the bytes of PKT while PKTV = 0
if `bytes`. -/
structure AgreeBut (latches bytes : Prop) (s t : State) : Prop where
  pktv : s.pktv = t.pktv
  rsp : s.rsp = t.rsp
  rom : s.rom = t.rom
  line : s.line = t.line
  host : s.host = t.host
  inputs : s.inputs = t.inputs
  latch : ¬ latches → s.acc = t.acc ∧ s.off = t.off ∧ s.reven = t.reven
  pkt : (bytes → s.pktv = true) → s.pkt = t.pkt

/-- The comparison of LatchesAreUnobservable hides the latches alone. -/
theorem agreeButLatches_iff {s t : State} : AgreeButLatches s t ↔ AgreeBut True False s t := by
  constructor
  · intro (h : (s.setAcc t.acc).setLatch t.off t.reven = t)
    rw [← h]
    exact ⟨rfl, rfl, rfl, rfl, rfl, rfl, fun hl => absurd trivial hl, fun _ => rfl⟩
  · intro h
    exact State.ext_fields (h.pkt False.elim) h.pktv rfl rfl rfl h.rsp h.rom h.line h.host h.inputs

/-- The comparison of UnreadablePacketIsUnobservable hides the unreadable bytes alone. -/
theorem agreeButUnreadable_iff {s t : State} : AgreeButUnreadable s t ↔ AgreeBut False True s t := by
  constructor
  · rintro (rfl | ⟨hv, h⟩)
    · exact ⟨rfl, rfl, rfl, rfl, rfl, rfl, fun _ => ⟨rfl, rfl, rfl⟩, fun _ => rfl⟩
    · rw [← h]
      exact ⟨rfl, rfl, rfl, rfl, rfl, rfl, fun _ => ⟨rfl, rfl, rfl⟩,
        fun hb => absurd (hb trivial) (by simp [hv])⟩
  · intro h
    obtain ⟨acc, off, reven⟩ := h.latch id
    by_cases hv : s.pktv = true
    · exact .inl (State.ext_fields (h.pkt fun _ => hv) h.pktv acc off reven h.rsp h.rom h.line h.host h.inputs)
    · exact .inr ⟨by simpa using hv,
        State.ext_fields rfl h.pktv acc off reven h.rsp h.rom h.line h.host h.inputs⟩

/-- Outcomes of the same kind: two next states that are related, or the same stop. -/
theorem SameOutcome.cases {R : State → State → Prop} {o o' : Host.Outcome State Fault Refusal}
    (h : SameOutcome R o o') :
    (∃ s t, o = .next s ∧ o' = .next t ∧ R s t) ∨ (∃ r, o = .fault r ∧ o' = .fault r) ∨
      (∃ r, o = .refused r ∧ o' = .refused r) := by
  cases o <;> cases o' <;> simp_all [SameOutcome]

/-- Outcomes stay of the same kind under a weaker relation. -/
theorem SameOutcome.mono {R R' : State → State → Prop} {o o' : Host.Outcome State Fault Refusal}
    (h : SameOutcome R o o') (hR : ∀ {s t}, R s t → R' s t) : SameOutcome R' o o' := by
  obtain ⟨s, t, rfl, rfl, hst⟩ | ⟨r, rfl, rfl⟩ | ⟨r, rfl, rfl⟩ := h.cases
  · exact hR hst
  · rfl
  · rfl

namespace AgreeBut

variable {latches bytes : Prop} {s t : State}

/-! Each update of the state keeps the relation. -/

theorem setRsp (h : AgreeBut latches bytes s t) (r : Option Response) :
    AgreeBut latches bytes (s.setRsp r) (t.setRsp r) :=
  { h with rsp := rfl }

theorem setHost (h : AgreeBut latches bytes s t) (x : HostSide) :
    AgreeBut latches bytes (s.setHost x) (t.setHost x) :=
  { h with host := rfl }

theorem setPhase (h : AgreeBut latches bytes s t) (p : Phase) :
    AgreeBut latches bytes (setPhase p s) (setPhase p t) := by
  unfold Machine.setPhase
  rw [h.host]
  exact h.setHost _

theorem setLine (h : AgreeBut latches bytes s t) (l : List Byte) :
    AgreeBut latches bytes (s.setLine l) (t.setLine l) :=
  { h with line := rfl }

theorem setRom (h : AgreeBut latches bytes s t) (im : Image) :
    AgreeBut latches bytes (s.setRom im) (t.setRom im) :=
  { h with rom := rfl }

theorem setInputs (h : AgreeBut latches bytes s t) (l : List Input) :
    AgreeBut latches bytes (s.setInputs l) (t.setInputs l) :=
  { h with inputs := rfl }

theorem setAcc (h : AgreeBut latches bytes s t) (v : Byte) :
    AgreeBut latches bytes (s.setAcc v) (t.setAcc v) :=
  { h with latch := fun hl => ⟨rfl, (h.latch hl).2⟩ }

theorem clearPacketValid (h : AgreeBut latches bytes s t) :
    AgreeBut latches bytes (clearPacketValid s) (clearPacketValid t) :=
  { h with
    pktv := rfl
    pkt := fun hb => h.pkt fun b => absurd (hb b) Bool.false_ne_true }

/-- A packet that is stored hides nothing: it writes PKT and every latch. -/
theorem storePacket (h : AgreeBut latches bytes s t) (p : List Byte) (offset : Int) (rev : Bool) :
    AgreeBut latches bytes (storePacket p offset rev s) (storePacket p offset rev t) :=
  { h with
    pktv := rfl
    latch := fun _ => ⟨rfl, rfl, rfl⟩
    pkt := fun _ => rfl }

theorem resetBlock (h : AgreeBut latches bytes s t) :
    AgreeBut latches bytes (resetBlock s) (resetBlock t) :=
  { h with
    pktv := rfl
    rsp := rfl
    latch := fun _ => ⟨rfl, rfl, rfl⟩
    pkt := fun _ => rfl }

/-- While PKTV = 1 the packet buffers are equal. -/
theorem readable (h : AgreeBut latches bytes s t) (hv : s.pktv = true) : s.pkt = t.pkt :=
  h.pkt fun _ => hv

/-! The instructions (30_encoding.md R90, R81). -/

theorem runEnc (h : AgreeBut latches bytes s t) (offset : Int) :
    AgreeBut latches bytes (runEnc offset s) (runEnc offset t) := by
  unfold Machine.runEnc
  split <;> exact h.setRsp _

theorem runSum (h : AgreeBut latches bytes s t) (buffer : Image) (offset count : Int) :
    AgreeBut latches bytes (runSum buffer offset count s) (runSum buffer offset count t) := by
  unfold Machine.runSum
  split
  · exact (h.setAcc _).setRsp _
  · exact h.setRsp _

/-- SUM reads PKT only while PKTV = 1 (42_checksum.md R157). -/
theorem execSum (h : AgreeBut latches bytes s t) (offset : Offset) (count : BitVec 9) :
    SameOutcome (AgreeBut latches bytes) (execSum offset count s) (execSum offset count t) := by
  unfold Machine.execSum
  rw [← h.pktv]
  split
  · rename_i hv
    have buffer : pktImage s = pktImage t := by simp only [pktImage, h.readable hv]
    rw [buffer]
    exact h.runSum _ _ _
  · exact h.setRsp _

/-- PKT reads the ROM image and no element of the block (43_packet_formatter.md R177). -/
theorem execPkt (h : AgreeBut latches bytes s t) (offset : Offset) (rev : Bool) :
    SameOutcome (AgreeBut latches bytes) (execPkt offset rev s) (execPkt offset rev t) := by
  unfold Machine.execPkt runPkt
  rw [h.rom]
  split
  · split
    · exact (h.storePacket _ _ _).setRsp _
    · exact h.clearPacketValid.setRsp _
  · rfl

theorem exec (h : AgreeBut latches bytes s t) (i : Instr) :
    SameOutcome (AgreeBut latches bytes) (exec i s) (exec i t) := by
  cases i with
  | enc offset => exact h.runEnc _
  | rev b => exact h.setRsp _
  | sum offset count => exact h.execSum offset count
  | pkt offset rev => exact h.execPkt offset rev
  | packet5A addr payload checksum =>
    have line : t.line = s.line := h.line.symm
    simp only [Machine.exec, execPacket5A, sendBytes, line]
    exact h.setLine _

theorem runUndecoded (h : AgreeBut latches bytes s t) (c : Code) :
    SameOutcome (AgreeBut latches bytes) (runUndecoded c s) (runUndecoded c t) := by
  cases c with
  | word w => exact h.setRsp _
  | frame b => rfl

theorem runCode (h : AgreeBut latches bytes s t) (c : Code) :
    SameOutcome (AgreeBut latches bytes) (runCode c s) (runCode c t) := by
  unfold Machine.runCode
  split
  · exact h.exec _
  · exact h.runUndecoded c

/-! The host around a code of a session (45_host_environment.md R222, R225). -/

theorem takeResponse (h : AgreeBut latches bytes s t) :
    AgreeBut latches bytes (takeResponse s) (takeResponse t) := by
  unfold Machine.takeResponse
  rw [h.rsp, h.host]
  split
  · exact h.setPhase _
  · exact h

theorem notePacket (h : AgreeBut latches bytes s t) (i : Instr) :
    AgreeBut latches bytes (notePacket i s) (notePacket i t) := by
  cases i with
  | pkt offset rev =>
    simp only [Machine.notePacket, h.host]
    exact h.setHost _
  | _ => exact h

theorem observed {see : State → State} {o o' : Host.Outcome State Fault Refusal}
    (h : SameOutcome (AgreeBut latches bytes) o o')
    (hsee : ∀ {s t}, AgreeBut latches bytes s t → AgreeBut latches bytes (see s) (see t)) :
    SameOutcome (AgreeBut latches bytes) (observed see o) (observed see o') := by
  obtain ⟨u, v, rfl, rfl, huv⟩ | ⟨r, rfl, rfl⟩ | ⟨r, rfl, rfl⟩ := h.cases
  · exact hsee huv
  · rfl
  · rfl

theorem runSessionCode (h : AgreeBut latches bytes s t) (c : Code) :
    SameOutcome (AgreeBut latches bytes) (runSessionCode c s) (runSessionCode c t) := by
  unfold Machine.runSessionCode
  split
  · split
    · rfl
    · exact observed (h.exec _) fun huv => (huv.notePacket _).takeResponse
  · exact observed (h.runUndecoded c) takeResponse

theorem runPortCode (h : AgreeBut latches bytes s t) (c : Code) :
    SameOutcome (AgreeBut latches bytes) (runPortCode c s) (runPortCode c t) := by
  unfold Machine.runPortCode
  rw [h.host]
  split
  · exact h.runSessionCode c
  · exact h.runCode c

/-! The other inputs of the host (45_host_environment.md R200, R205, 43_packet_formatter.md R182). -/

theorem runLoad (h : AgreeBut latches bytes s t) (file : List Byte) :
    SameOutcome (AgreeBut latches bytes) (runLoad file s) (runLoad file t) := by
  unfold Machine.runLoad
  rw [h.host]
  split
  · rfl
  · split
    · exact (h.setRom _).setHost _
    · exact h.setHost _

/-- A read-out reads PKT only while PKTV = 1 (10_state.md R22). -/
theorem runReadOut (h : AgreeBut latches bytes s t) (k : Nat) :
    SameOutcome (AgreeBut latches bytes) (runReadOut k s) (runReadOut k t) := by
  unfold Machine.runReadOut
  rw [← h.pktv, h.host]
  split
  · rename_i hv
    have byte : memRead .pkt k s = memRead .pkt k t := by simp only [memRead, h.readable hv]
    rw [byte]
    split
    · exact h.setHost _
    · rfl
  · rfl

theorem runFlash (h : AgreeBut latches bytes s t) (rev : Bool) (params : HostParams) :
    SameOutcome (AgreeBut latches bytes) (runFlash rev params s) (runFlash rev params t) := by
  unfold Machine.runFlash
  rw [h.host, h.rom]
  split_ifs
  · rfl
  · rfl
  · exact h.setHost _
  · rfl

/-! The transfer state machine (45_host_environment.md R209 to R213). -/

theorem issuePacket (h : AgreeBut latches bytes s t) (i : Nat) (p : Phase) :
    SameOutcome (AgreeBut latches bytes) (issuePacket i p s) (issuePacket i p t) := by
  unfold Machine.issuePacket
  rw [h.host]
  obtain ⟨u, v, hu, hv, huv⟩ | ⟨r, hu, hv⟩ | ⟨r, hu, hv⟩ :=
    (h.runCode (packetCommand i t.host.reverseBits)).cases <;> simp only [hu, hv]
  · rw [huv.rsp, huv.host]
    split
    · exact huv.setPhase _
    · exact huv.setHost _
  · rfl
  · rfl

theorem startSending (h : AgreeBut latches bytes s t) (i : Nat) :
    SameOutcome (AgreeBut latches bytes) (startSending i s) (startSending i t) := by
  unfold Machine.startSending
  rw [h.rom]
  split
  · exact h.issuePacket i _
  · exact h.setPhase _

/-- The packet that goes on the line is read while PKTV = 1. -/
theorem sendPacket (h : AgreeBut latches bytes s t) (hv : s.pktv = true) (i : Nat) :
    SameOutcome (AgreeBut latches bytes) (sendPacket i s) (sendPacket i t) := by
  have packet : pktBytes s = pktBytes t := by simp only [pktBytes, h.readable hv]
  unfold Machine.sendPacket
  rw [packet]
  obtain ⟨u, v, hu, hv, huv⟩ | ⟨r, hu, hv⟩ | ⟨r, hu, hv⟩ :=
    (h.runCode (.frame (pktBytes t))).cases <;> simp only [hu, hv]
  · exact huv.setPhase _
  · rfl
  · rfl

theorem transmit (h : AgreeBut latches bytes s t) (i : Nat) :
    SameOutcome (AgreeBut latches bytes) (transmit i s) (transmit i t) := by
  unfold Machine.transmit
  rw [← h.pktv, ← h.host]
  split
  · rename_i held
    exact h.sendPacket (Bool.and_eq_true_iff.1 held).1 i
  · obtain ⟨u, v, hu, hv, huv⟩ | ⟨r, hu, hv⟩ | ⟨r, hu, hv⟩ :=
      (h.issuePacket i s.host.phase).cases <;> simp only [hu, hv]
    · rw [← huv.pktv]
      split
      · rename_i built
        exact huv.sendPacket built i
      · exact huv
    · rfl
    · rfl

theorem retryOrFail (h : AgreeBut latches bytes s t) (i : Nat) :
    AgreeBut latches bytes (retryOrFail i s) (retryOrFail i t) := by
  unfold Machine.retryOrFail
  rw [h.host]
  split
  · exact h.setHost _
  · exact h.setPhase _

theorem acknowledged (h : AgreeBut latches bytes s t) (i : Nat) :
    SameOutcome (AgreeBut latches bytes) (acknowledged i s) (acknowledged i t) := by
  unfold Machine.acknowledged
  rw [h.host]
  exact (h.setHost _).startSending _

theorem runReply (h : AgreeBut latches bytes s t) (i : Nat) (frame : List Byte) :
    SameOutcome (AgreeBut latches bytes) (runReply i frame s) (runReply i frame t) := by
  unfold Machine.runReply
  rw [h.host]
  split_ifs
  · exact h.acknowledged i
  · exact h.retryOrFail i
  · exact h

/-- An event acts by the phase, which the states share. -/
theorem runEvent (h : AgreeBut latches bytes s t) (e : HostEvent) :
    SameOutcome (AgreeBut latches bytes) (runEvent e s) (runEvent e t) := by
  cases e with
  | opened =>
    simp only [Machine.runEvent, runOpened, h.host]
    split
    · exact (h.setHost _).startSending 0
    · exact h
  | openFailed =>
    simp only [Machine.runEvent, runOpenFailed, h.host]
    split
    · exact h.setPhase _
    · exact h
  | written =>
    simp only [Machine.runEvent, runWritten, h.host]
    split
    · exact h.transmit _
    · exact h.transmit _
    · exact h
  | reply frame =>
    simp only [Machine.runEvent, runReplyEvent, h.host]
    split
    · exact h.runReply _ frame
    · exact h
  | timeout =>
    simp only [Machine.runEvent, runTimeout, h.host]
    split
    · exact h.setPhase _
    · exact h.retryOrFail _
    · exact h.retryOrFail _
    · exact h.retryOrFail _
    · exact h
  | ioError =>
    simp only [Machine.runEvent, runIoError, h.host]
    split <;> exact h.setPhase _
  | released =>
    simp only [Machine.runEvent, runReleased, h.host]
    split
    · exact h.setHost _
    · exact h
  | cancel =>
    simp only [Machine.runEvent, runCancel, h.host]
    exact h.setPhase _

theorem handleInput (h : AgreeBut latches bytes s t) (x : Input) :
    SameOutcome (AgreeBut latches bytes) (handleInput x s) (handleInput x t) := by
  cases x with
  | code c => exact h.runPortCode c
  | reset => exact h.resetBlock
  | readOut k => exact h.runReadOut k
  | load file => exact h.runLoad file
  | flash rev params => exact h.runFlash rev params
  | event e => exact h.runEvent e

/-- No step observes what the relation hides. -/
theorem step (h : AgreeBut latches bytes s t) :
    SameOutcome (AgreeBut latches bytes) (step s) (step t) := by
  unfold Machine.step nextInput
  rw [h.inputs]
  split
  · exact h
  · exact (h.setInputs _).handleInput _

end AgreeBut

/-- Settles O41: the latches are hidden, the bytes of PKT are not. -/
theorem latchesAreUnobservable : Obligations.LatchesAreUnobservable :=
  fun _ _ h => (agreeButLatches_iff.1 h).step.mono agreeButLatches_iff.2

/-- Settles O42: the bytes of PKT are hidden while PKTV = 0, the latches are not. -/
theorem unreadablePacketIsUnobservable : Obligations.UnreadablePacketIsUnobservable :=
  fun _ _ h => (agreeButUnreadable_iff.1 h).step.mono agreeButUnreadable_iff.2

end Sys2Proof.Machine
end

section
/-!
The address spaces and the repeated command (20_memory.md R50, R59): each space answers on its own addresses,
and a command that is issued again finds the operands and elements it read the first time.
-/

namespace Sys2Proof.Machine

/-- Settles O46: a byte of a space is read under the space's own bound, and none otherwise. -/
theorem spacesHoldTheirAddresses : Obligations.SpacesHoldTheirAddresses :=
  fun _ _ => ⟨Option.isSome_ite, Option.isSome_ite, Option.isSome_ite⟩

/-- ENC reads no state (40_address_encoder.md R113). -/
theorem runEnc_runEnc (offset : Int) (s : State) :
    runEnc offset (runEnc offset s) = runEnc offset s := by
  unfold runEnc
  split <;> rfl

/-- SUM over a given buffer reads no state (42_checksum.md R152). -/
theorem runSum_runSum (buffer : Image) (offset count : Int) (s : State) :
    runSum buffer offset count (runSum buffer offset count s) = runSum buffer offset count s := by
  unfold runSum
  split <;> rfl

/-- SUM does not write what it reads, PKT and PKTV (42_checksum.md R158). -/
theorem runSum_keeps_packet (buffer : Image) (offset count : Int) (s : State) :
    (runSum buffer offset count s).pkt = s.pkt ∧ (runSum buffer offset count s).pktv = s.pktv := by
  unfold runSum
  split <;> exact ⟨rfl, rfl⟩

/-- SUM that ran once finds the same packet, or none again (42_checksum.md R157). -/
theorem execSum_again {offset : Offset} {count : BitVec 9} {s t : State}
    (h : execSum offset count s = .next t) : execSum offset count t = .next t := by
  unfold execSum at h ⊢
  split at h
  · next valid =>
    cases h
    obtain ⟨pkt, pktv⟩ := runSum_keeps_packet (pktImage s) (zext offset) (zext count) s
    rw [if_pos (pktv.trans valid), pktImage, pkt]
    exact congrArg Host.Outcome.next (runSum_runSum ..)
  · next invalid =>
    cases h
    exact if_neg invalid

/-- PKT on a valid image whose checks pass stores the packet (43_packet_formatter.md R172, R178). -/
theorem runPkt_of_ok {offset : Int} {rev : Bool} {s : State} {p : List Byte}
    (valid : s.rom.valid = true) (built : buildPacket s.rom offset rev = .ok p) :
    runPkt offset rev s = .next (respond 0#24 (storePacket p offset rev s)) := by
  simp only [runPkt, valid, if_true, built]

/-- PKT on a valid image with a failing check clears PKTV (43_packet_formatter.md R185). -/
theorem runPkt_of_error {offset : Int} {rev : Bool} {s : State} {f : Failure}
    (valid : s.rom.valid = true) (failed : buildPacket s.rom offset rev = .error f) :
    runPkt offset rev s = .next (raise f (clearPacketValid s)) := by
  simp only [runPkt, valid, if_true, failed]

/-- PKT reads the ROM image alone, which it does not write, and writes the same elements each time
(43_packet_formatter.md R177). -/
theorem runPkt_again {offset : Int} {rev : Bool} {s t : State}
    (h : runPkt offset rev s = .next t) : runPkt offset rev t = .next t := by
  cases valid : s.rom.valid with
  | false => simp [runPkt, valid] at h
  | true =>
    cases built : buildPacket s.rom offset rev with
    | ok p =>
      rw [runPkt_of_ok valid built] at h
      cases h
      exact runPkt_of_ok valid built
    | error f =>
      rw [runPkt_of_error valid built] at h
      cases h
      exact runPkt_of_error valid built

/-- R59: each command, answered once, answers the same again. A packet on the line is sent twice. -/
theorem exec_again {i : Instr} {s t : State} (command : ∀ a p c, i ≠ .packet5A a p c)
    (h : exec i s = .next t) : exec i t = .next t := by
  cases i with
  | enc offset =>
    cases h
    exact congrArg Host.Outcome.next (runEnc_runEnc ..)
  | rev b =>
    cases h
    rfl
  | sum offset count => exact execSum_again h
  | pkt offset rev => exact runPkt_again h
  | packet5A a p c => exact absurd rfl (command a p c)

/-- Settles O37: a word decodes the same in every state, to a command or to none, and neither kind answers
differently the second time. -/
theorem commandsAreIdempotent : Obligations.CommandsAreIdempotent := by
  intro w s t h
  cases decoded : decodeWord w with
  | ok i =>
    have runs (u : State) : runCode (.word w) u = exec i u := by simp only [runCode, decode, decoded]
    rw [runs] at h ⊢
    exact exec_again (fun a p c hi => decodeWord_ne_packet w a p c (hi ▸ decoded)) h
  | error e =>
    have runs (u : State) : runCode (.word w) u = .next (raise .illegalCommand u) := by
      simp only [runCode, decode, decoded, runUndecoded]
    rw [runs] at h ⊢
    cases h
    rfl

end Sys2Proof.Machine
end

section
/-!
Decoding and encoding undo each other, and the rows and the reserved fields of a command word (30_encoding.md R81,
R88 to R98).
-/

namespace Sys2Proof.Machine

/-! Decoding the code of an instruction. -/

/-- The two parts of the argument of REV (30_encoding.md R88). -/
theorem argHigh_packWord (op : BitVec 2) (rev : BitVec 1) (count : BitVec 9) (high : BitVec 16) (low : Byte) :
    argHigh (packWord op rev count (high ++ low)) = high :=
  (BitVec.extractLsb'_append_eq_of_add_le (by decide)).trans BitVec.extractLsb'_append_eq_left

theorem argByte_packWord (op : BitVec 2) (rev : BitVec 1) (count : BitVec 9) (high : BitVec 16) (low : Byte) :
    argByte (packWord op rev count (high ++ low)) = low :=
  (BitVec.extractLsb'_append_eq_of_add_le (by decide)).trans BitVec.extractLsb'_append_eq_right

/-- Every field of a packet stands where the decoder reads it (30_encoding.md R81, R83). -/
theorem decodeFrame_packetBytes (addr : Offset) {payload : List Byte} (checksum : Byte)
    (h : payload.length = 256) :
    decodeFrame (packetBytes addr payload checksum) = .ok (.packet5A addr payload checksum) := by
  have last : (packetBytes addr payload checksum).getD 260 0#8 = checksum := by
    simp [packetBytes, h]
  have body : ((packetBytes addr payload checksum).drop 4).take 256 = payload := by
    simp [packetBytes, h]
  unfold decodeFrame
  rw [if_neg (by simp [h]), if_neg (by simp [packetBytes]), last, body]
  exact congrArg (fun a => Except.ok (Instr.packet5A a payload checksum)) (append_address_bytes addr)

/-- Settles O25: each field of a code is read back as it was packed. -/
theorem decodeOfEncode : Obligations.DecodeOfEncode := by
  intro i h
  cases i with
  | enc offset => simp [encode, decode, decodeWord]
  | rev b => simp [encode, decode, decodeWord, argHigh_packWord, argByte_packWord]
  | sum offset count => simp [encode, decode, decodeWord]
  | pkt offset rev => cases rev <;> simp [encode, decode, decodeWord]
  | packet5A addr payload checksum =>
    exact decodeFrame_packetBytes addr checksum (by simpa [Instr.wellFormed] using h)

/-- Settles O29: each code is the packing of the instruction it stands for. -/
theorem listedCodesDecode : Obligations.ListedCodesDecode :=
  ⟨decodeOfEncode (.enc 0x012300#24) rfl, decodeOfEncode (.rev 0x12#8) rfl,
    decodeOfEncode (.sum 1#24 259#9) rfl, decodeOfEncode (.pkt 256#24 true) rfl,
    decodeOfEncode (.pkt 0x0FFF00#24 false) rfl,
    decodeFrame_packetBytes 0x012300#24 0x24#8 List.length_replicate⟩

/-! Encoding what a code decodes to. -/

/-- A word is packed from the values its fields have. -/
theorem packWord_of_fields {w : CommandWord} {op : BitVec 2} {rev : BitVec 1} {count : BitVec 9} {arg : Offset}
    (hop : opField w = op) (hrev : revField w = rev) (hcount : countField w = count) (harg : argField w = arg) :
    packWord op rev count arg = w := by
  subst hop hrev hcount harg
  exact packWord_fields w

/-- A field of one bit is 1 or 0. -/
theorem bit_eq_one_iff (b : BitVec 1) : b = 1#1 ↔ b ≠ 0#1 := by
  revert b
  decide

/-- The operation select takes four values (30_encoding.md R89). -/
theorem opField_cases (w : CommandWord) :
    opField w = 0#2 ∨ opField w = 1#2 ∨ opField w = 2#2 ∨ opField w = 3#2 := by
  generalize opField w = op
  revert op
  decide

theorem opField_eq_three {w : CommandWord} (h0 : opField w ≠ 0#2) (h1 : opField w ≠ 1#2) (h2 : opField w ≠ 2#2) :
    opField w = 3#2 :=
  (((opField_cases w).resolve_left h0).resolve_left h1).resolve_left h2

/-- A word that decodes has the fields of its instruction's row, every reserved field 0 (30_encoding.md R90). -/
theorem encode_of_decodeWord {w : CommandWord} {i : Instr} (h : decodeWord w = .ok i) : encode i = .word w := by
  unfold decodeWord at h
  split_ifs at h with op reserved op reserved high op rev count <;> cases h <;> refine congrArg Code.word ?_
  · push Not at reserved
    exact packWord_of_fields op reserved.1 reserved.2 rfl
  · push Not at reserved high
    exact packWord_of_fields op reserved.1 reserved.2 (by rw [argField_eq_append, high])
  · push Not at rev
    exact packWord_of_fields op rev rfl rfl
  · push Not at count
    refine packWord_of_fields (opField_eq_three ‹_› ‹_› ‹_›) ?_ count rfl
    obtain rev | rev := (revField w).eq_zero_or_eq_one <;> simp [rev]

/-- The bytes of an address given byte by byte (20_memory.md R54). -/
theorem extractLsb'_address (a b c : Byte) :
    BitVec.extractLsb' 16 8 (a ++ b ++ c) = a ∧ BitVec.extractLsb' 8 8 (a ++ b ++ c) = b ∧
      BitVec.extractLsb' 0 8 (a ++ b ++ c) = c :=
  ⟨(BitVec.extractLsb'_append_eq_of_le (by decide)).trans BitVec.extractLsb'_append_eq_left,
    (BitVec.extractLsb'_append_eq_of_le (by decide)).trans BitVec.extractLsb'_append_eq_right,
    BitVec.extractLsb'_append_eq_right⟩

/-- The frames of the wire's form are the codes of the well-formed packets (30_encoding.md R81). -/
theorem exists_packetBytes {bytes : List Byte} (length : bytes.length = 261) (command : bytes.getD 0 0#8 = 0x5A#8) :
    ∃ addr payload checksum, payload.length = 256 ∧ packetBytes addr payload checksum = bytes := by
  match bytes, length, command with
  | cmd :: a :: b :: c :: rest, length, command =>
    simp only [List.length_cons, Nat.reduceEqDiff] at length
    simp only [List.getD_cons_zero] at command
    obtain rfl | ⟨payload, checksum, rfl⟩ := rest.eq_nil_or_concat
    · simp at length
    · exact ⟨a ++ b ++ c, payload, checksum, by simpa using length,
        by simp [packetBytes, command, extractLsb'_address]⟩

/-- A frame that decodes has the wire's form (30_encoding.md R81, R86). -/
theorem frame_of_decodeFrame {bytes : List Byte} {i : Instr} (h : decodeFrame bytes = .ok i) :
    bytes.length = 261 ∧ bytes.getD 0 0#8 = 0x5A#8 := by
  unfold decodeFrame at h
  split_ifs at h with length command
  exact ⟨not_not.1 length, not_not.1 command⟩

/-- Settles O26: a word is packed from the fields the decoder reads, and a frame that decodes is the code of a
packet, which decodes to that packet. -/
theorem encodeOfDecode : Obligations.EncodeOfDecode := by
  intro c i h
  cases c with
  | word w =>
    refine ⟨?_, encode_of_decodeWord h⟩
    cases i with
    | packet5A a p c => exact absurd h (decodeWord_ne_packet w a p c)
    | _ => rfl
  | frame bytes =>
    obtain ⟨length, command⟩ := frame_of_decodeFrame h
    obtain ⟨addr, payload, checksum, hp, rfl⟩ := exists_packetBytes length command
    have := (decodeFrame_packetBytes addr checksum hp).symm.trans h
    cases this
    exact ⟨by simpa [Instr.wellFormed] using hp, rfl⟩

/-! The rows and the reserved fields of a command word. -/

/-- A word matches the row of ENC when its fields `rev` and `count` are 0 (30_encoding.md R90). -/
theorem matches_enc_iff (w : CommandWord) : w &&& 0xFFF000000#36 = 0x000000000#36 ↔
    opField w = 0#2 ∧ revField w = 0#1 ∧ countField w = 0#9 := by
  rw [show 0xFFF000000#36 = packWord (BitVec.allOnes 2) (BitVec.allOnes 1) (BitVec.allOnes 9) 0#24 by decide,
    show 0x000000000#36 = packWord 0#2 0#1 0#9 0#24 by decide, and_eq_iff_fields]
  simp [-BitVec.reduceAllOnes]

/-- The part of an argument that a row masks (30_encoding.md R90). -/
theorem append_and_high_eq_zero_iff (high : BitVec 16) (low : Byte) :
    high ++ low &&& BitVec.allOnes 16 ++ 0#8 = 0#16 ++ 0#8 ↔ high = 0#16 := by
  rw [BitVec.and_append, BitVec.and_allOnes, BitVec.and_zero, BitVec.append_left_inj]

theorem matches_rev_iff (w : CommandWord) : w &&& 0xFFFFFFF00#36 = 0x400000000#36 ↔
    opField w = 1#2 ∧ revField w = 0#1 ∧ countField w = 0#9 ∧ argHigh w = 0#16 := by
  rw [show 0xFFFFFFF00#36 = packWord (BitVec.allOnes 2) (BitVec.allOnes 1) (BitVec.allOnes 9)
      (BitVec.allOnes 16 ++ 0#8) by decide,
    show 0x400000000#36 = packWord 1#2 0#1 0#9 (0#16 ++ 0#8) by decide, and_eq_iff_fields, argField_packWord,
    argField_packWord, argField_eq_append, append_and_high_eq_zero_iff]
  simp [-BitVec.reduceAllOnes]

theorem matches_sum_iff (w : CommandWord) : w &&& 0xE00000000#36 = 0x800000000#36 ↔
    opField w = 2#2 ∧ revField w = 0#1 := by
  rw [show 0xE00000000#36 = packWord (BitVec.allOnes 2) (BitVec.allOnes 1) 0#9 0#24 by decide,
    show 0x800000000#36 = packWord 2#2 0#1 0#9 0#24 by decide, and_eq_iff_fields]
  simp [-BitVec.reduceAllOnes]

theorem matches_pkt_iff (w : CommandWord) : w &&& 0xDFF000000#36 = 0xC00000000#36 ↔
    opField w = 3#2 ∧ countField w = 0#9 := by
  rw [show 0xDFF000000#36 = packWord (BitVec.allOnes 2) 0#1 (BitVec.allOnes 9) 0#24 by decide,
    show 0xC00000000#36 = packWord 3#2 0#1 0#9 0#24 by decide, and_eq_iff_fields]
  simp [-BitVec.reduceAllOnes]

/-- The reserved-field violations of R94. -/
def ReservedSet (w : CommandWord) : Prop :=
  ((opField w = 0b00#2 ∨ opField w = 0b01#2) ∧ (revField w = 1#1 ∨ countField w ≠ 0#9)) ∨
    (opField w = 0b01#2 ∧ argHigh w ≠ 0#16) ∨ (opField w = 0b10#2 ∧ revField w = 1#1) ∨
    (opField w = 0b11#2 ∧ countField w ≠ 0#9)

/-- The code of an instruction has no reserved field set (30_encoding.md R90). -/
theorem not_reservedSet_of_encode {i : Instr} {w : CommandWord} (h : encode i = .word w) : ¬ ReservedSet w := by
  cases i with
  | enc offset =>
    cases h
    simp [ReservedSet]
  | rev b =>
    cases h
    simp [ReservedSet, argHigh_packWord]
  | sum offset count =>
    cases h
    simp [ReservedSet]
  | pkt offset rev =>
    cases h
    simp [ReservedSet]
  | packet5A a p c => cases h

/-- A word is rejected for its reserved fields and for nothing else (30_encoding.md R94). -/
theorem decodeWord_error_iff (w : CommandWord) : (∃ e, decodeWord w = .error e) ↔ ReservedSet w := by
  constructor
  · rintro ⟨e, h⟩
    unfold decodeWord at h
    simp only [← bit_eq_one_iff] at h
    split_ifs at h with op reserved op reserved high op rev count
    · exact .inl ⟨.inl op, reserved⟩
    · exact .inl ⟨.inr op, reserved⟩
    · exact .inr (.inl ⟨op, high⟩)
    · exact .inr (.inr (.inl ⟨op, rev⟩))
    · exact .inr (.inr (.inr ⟨opField_eq_three ‹_› ‹_› ‹_›, count⟩))
  · intro reserved
    cases decoded : decodeWord w with
    | error e => exact ⟨e, rfl⟩
    | ok i => exact absurd reserved (not_reservedSet_of_encode (encode_of_decodeWord decoded))

/-- A word that no row matches has a reserved field set (30_encoding.md R90, R94). -/
theorem reservedSet_of_no_row {w : CommandWord} (enc : w &&& 0xFFF000000#36 ≠ 0x000000000#36)
    (rev : w &&& 0xFFFFFFF00#36 ≠ 0x400000000#36) (sum : w &&& 0xE00000000#36 ≠ 0x800000000#36)
    (pkt : w &&& 0xDFF000000#36 ≠ 0xC00000000#36) : ReservedSet w := by
  rw [ne_eq, matches_enc_iff] at enc
  rw [ne_eq, matches_rev_iff] at rev
  rw [ne_eq, matches_sum_iff] at sum
  rw [ne_eq, matches_pkt_iff] at pkt
  unfold ReservedSet
  obtain op | op | op | op := opField_cases w
  · simpa [op, bit_eq_one_iff, imp_iff_not_or] using enc
  · simpa [op, bit_eq_one_iff, imp_iff_not_or, or_assoc] using rev
  · simpa [op, bit_eq_one_iff] using sum
  · simpa [op] using pkt

/-- The flag of PKT is bit 33 (30_encoding.md R88). -/
theorem revField_beq_one (w : CommandWord) : (revField w == 1#1) = w.getLsbD 33 := by
  have : revField w = BitVec.ofBool (w.getLsbD 33) := by
    ext i hi
    obtain rfl : i = 0 := by omega
    simp [revField]
  rw [this]
  cases w.getLsbD 33 <;> rfl

/-- Settles O27: the masks read the operation select and the reserved fields. -/
theorem wordDecodesByItsRow : Obligations.WordDecodesByItsRow := by
  intro w
  refine ⟨fun h => ?_, fun h => ?_, fun h => ?_, fun h => ?_, fun enc rev sum pkt => ?_⟩
  · obtain ⟨op, rev, count⟩ := (matches_enc_iff w).1 h
    simp [decodeWord, op, rev, count, argField]
  · obtain ⟨op, rev, count, high⟩ := (matches_rev_iff w).1 h
    simp [decodeWord, op, rev, count, high, argByte]
  · obtain ⟨op, rev⟩ := (matches_sum_iff w).1 h
    simp [decodeWord, op, rev, argField, countField]
  · obtain ⟨op, count⟩ := (matches_pkt_iff w).1 h
    simp [decodeWord, op, count, argField, revField_beq_one]
  · exact (decodeWord_error_iff w).2 (reservedSet_of_no_row enc rev sum pkt)

/-- A frame that is no 0x5A packet is refused (30_encoding.md R95). -/
theorem runCode_frame_undefined {bytes : List Byte} (s : State)
    (h : ¬ (bytes.length = 261 ∧ bytes.head? = some 0x5A#8)) :
    runCode (.frame bytes) s = .refused .undefinedPacket := by
  cases decoded : decodeFrame bytes with
  | error e => simp [runCode, decode, decoded, runUndecoded]
  | ok i =>
    obtain ⟨length, command⟩ := frame_of_decodeFrame decoded
    refine absurd ⟨length, ?_⟩ h
    cases bytes with
    | nil => exact absurd length (by decide)
    | cons b rest => exact congrArg some command

/-- Settles O28: a word is rejected for its reserved fields alone, and a frame that decodes is a 0x5A packet. -/
theorem reservedFieldsAreIllegal : Obligations.ReservedFieldsAreIllegal := by
  refine ⟨fun w s => ?_, fun bytes s => runCode_frame_undefined s⟩
  have iff : (∃ e, decodeWord w = .error e) ↔ ReservedSet w := decodeWord_error_iff w
  obtain ⟨i, decoded, runs⟩ | ⟨rejected, runs⟩ := runCode_word w s
  · refine ⟨fun reserved => ?_, fun _ => ⟨i, decoded, runs⟩, rfl⟩
    obtain ⟨e, rejected⟩ := iff.2 reserved
    exact nomatch decoded.symm.trans rejected
  · exact ⟨fun _ => runs, fun legal => absurd (iff.1 rejected) legal, rfl⟩

end Sys2Proof.Machine
end

section
/-!
The packet on the line, and the one that PKT leaves in the buffer (30_encoding.md R81, R86, R87).
-/

namespace Sys2Proof.Machine

/-- Settles O30: PACKET_5A gives the line its code. -/
theorem wirePacketIsSentAsItIs : Obligations.WirePacketIsSentAsItIs :=
  fun addr payload c _ h => ⟨packetBytes addr payload c, rfl, by simp [h], rfl⟩

/-- PKT that ran leaves its offset in OFF and its packet in PKT (43_packet_formatter.md R172, R178). -/
theorem built_of_pktRuns {s t : State} {offset : Offset} {rev : Bool} (h : PktRuns s offset)
    (ht : exec (.pkt offset rev) s = .next t) : t.off = offset ∧
      t.pkt = Memory.ofBytes (framePacket (addressBytes offset.toNat) (chunkPayload s.rom offset.toNat rev)) := by
  obtain ⟨valid, aligned, inRom⟩ := h
  rw [exec_pkt_ok rev valid aligned inRom] at ht
  cases ht
  exact ⟨low24_zext offset, rfl⟩

/-- The values that the fields of a valid packet can take (30_encoding.md R87). -/
theorem PacketOk.field_ranges {s : State} (h : PacketOk s) :
    (Memory.read s.pkt 1).toNat ≤ 0x0F ∧ Memory.read s.pkt 3 = 0x00#8 ∧ s.off.toNat ≤ 1048320 := by
  obtain ⟨-, address, -, aligned, inImage⟩ := h
  have bytes := extractLsb'_address (Memory.read s.pkt 1) (Memory.read s.pkt 2) (Memory.read s.pkt 3)
  rw [address] at bytes
  obtain ⟨high, -, low⟩ := bytes
  simp only [Config.chunk, Config.romMax] at aligned inImage
  rw [← high, ← low]
  refine ⟨?_, BitVec.eq_of_toNat_eq ?_, by omega⟩
  · simp [Nat.shiftRight_eq_div_pow]
    omega
  · simp
    omega

/-- Settles O20: a packet that PKT built is what PKTV promises. -/
theorem builtPacketFieldRanges : Obligations.BuiltPacketFieldRanges := by
  intro offset rev s t h ht
  obtain ⟨off, pkt⟩ := built_of_pktRuns h ht
  obtain ⟨valid, aligned, inRom⟩ := h
  subst off
  exact (packetOk_of_buildPacket valid (buildPacket_ok rev valid aligned inRom) pkt).field_ranges

/-- A packet that PKT builds is the code of a PACKET_5A (30_encoding.md R81). -/
theorem framePacket_eq_packetBytes (offset : Offset) (payload : List Byte) :
    framePacket (addressBytes offset.toNat) payload =
      packetBytes offset payload (accumulate (offset.extractLsb' 16 8 :: offset.extractLsb' 8 8 ::
        offset.extractLsb' 0 8 :: payload)) := by
  rw [addressBytes_offset]
  rfl

/-- Byte 260 of a packet is its checksum (30_encoding.md R81). -/
theorem read_packetBytes_checksum (addr : Offset) {payload : List Byte} (checksum : Byte)
    (h : payload.length = 256) :
    Memory.read (Memory.ofBytes (packetBytes addr payload checksum)) 260 = checksum := by
  rw [Memory.read_ofBytes]
  simp [packetBytes, h]

/-- The payload of a packet, byte by byte (43_packet_formatter.md R175). -/
theorem chunkPayload_eq_map (rom : Image) (offset : Nat) (rev : Bool) :
    chunkPayload rom offset rev = (List.range 256).map fun j =>
      if rev then reverse (Memory.read rom.mem (offset + j)) else Memory.read rom.mem (offset + j) := by
  rw [chunkPayload, Memory.slice_eq_map, List.map_map]
  rfl

/-- Settles O31: the buffer holds the code of the packet of the offset and its chunk, which decodes to it. -/
theorem builtPacketIsAWirePacket : Obligations.BuiltPacketIsAWirePacket := by
  intro offset rev s t h ht
  obtain ⟨-, pkt⟩ := built_of_pktRuns h ht
  have len := length_chunkPayload s.rom offset.toNat rev
  rw [framePacket_eq_packetBytes] at pkt
  rw [pktBytes_of_pkt pkt (by simp), pkt, read_packetBytes_checksum _ _ len, ← chunkPayload_eq_map]
  exact decodeFrame_packetBytes offset _ len

end Sys2Proof.Machine
end

section
/-!
The codes of a response (30_encoding.md R91 to R93), and a step on a code that decodes (R98,
45_host_environment.md R218, R222, R225).
-/

namespace Sys2Proof.Machine

/-- No failure is reported as OK (30_encoding.md R92, R93). -/
theorem Failure.status_ne_ok (f : Failure) : f.status ≠ .ok := by
  cases f <;> decide

/-- Settles O32: the codes as the table lists them. -/
theorem responseCodes : Obligations.ResponseCodes := by
  refine ⟨fun _ => rfl, fun f => ⟨rfl, f.status_ne_ok⟩, ?_⟩
  decide

/-! A step on a code. -/

/-- A step takes the next input (log 1). -/
theorem step_of_inputs {s : State} {x : Input} {rest : List Input} (h : s.inputs = x :: rest) :
    step s = handleInput x (s.setInputs rest) := by
  simp [step, nextInput, h]

/-- With no session a code that decodes is executed (30_encoding.md R98). -/
theorem runPortCode_idle {c : Code} {i : Instr} {s : State} (hi : decode c = .ok i)
    (idle : s.host.phase.active = false) : runPortCode c s = exec i s := by
  simp [runPortCode, idle, runCode, hi]

/-- During a session a packet from elsewhere is refused (45_host_environment.md R218). -/
theorem runPortCode_packet {c : Code} {s : State} {a : Offset} {p : List Byte} {x : Byte}
    (hi : decode c = .ok (.packet5A a p x)) (active : s.host.phase.active = true) :
    runPortCode c s = .refused .transportOwned := by
  simp [runPortCode, active, runSessionCode, hi, sessionRefusal]

/-- A running session refuses packets alone (45_host_environment.md R225). -/
theorem sessionRefusal_command {i : Instr} (h : ∀ a p x, i ≠ .packet5A a p x) : sessionRefusal i = none := by
  cases i with
  | packet5A a p x => exact absurd rfl (h a p x)
  | _ => rfl

/-- During a session a command is executed, and the host takes note of its packet and its response
(45_host_environment.md R222, R225). -/
theorem runPortCode_command {c : Code} {i : Instr} {s : State} (hi : decode c = .ok i)
    (active : s.host.phase.active = true) (command : ∀ a p x, i ≠ .packet5A a p x) :
    runPortCode c s = observed (fun t => takeResponse (notePacket i t)) (exec i s) := by
  simp [runPortCode, active, runSessionCode, hi, sessionRefusal_command command]

/-- The host takes note of PKT commands alone (70_reset_and_hazards.md R277). -/
theorem notePacket_other {i : Instr} (h : ∀ o r, i ≠ .pkt o r) (t : State) : notePacket i t = t := by
  cases i with
  | pkt o r => exact absurd rfl (h o r)
  | _ => rfl

/-- The PKT command of the packet in flight (45_host_environment.md R210, R214). -/
theorem ownPacket_iff (h : HostSide) (o : Offset) (r : Bool) : ownPacket h o r = true ↔
    ∃ k, h.phase.packetIndex = some k ∧ o = BitVec.ofNat 24 (256 * k) ∧ r = h.reverseBits := by
  unfold ownPacket
  split <;> simp_all [Config.chunk]

theorem takeResponse_of_no_error {t : State} (h : ∀ f, t.rsp ≠ some (.error f)) : takeResponse t = t :=
  (takeResponse_eq t).resolve_right fun ⟨f, hf, _⟩ => h f hf

/-- An error aborts the session as its class (45_host_environment.md R222). -/
theorem takeResponse_of_error {t : State} {f : Failure} (h : t.rsp = some (.error f)) :
    takeResponse t = setPhase (t.host.phase.abort f.errorClass) t := by
  simp [takeResponse, h]

/-- Settles O39: the step is the code at the port, whose cases are the phase of the session and the kind of the
instruction. -/
theorem stepRunsTheDecodedInstruction : Obligations.StepRunsTheDecodedInstruction := by
  intro s c i rest hs hi
  have port : step s = runPortCode c (s.setInputs rest) := step_of_inputs hs
  refine ⟨fun idle => port.trans (runPortCode_idle hi idle), fun active => ⟨?_, fun command => ?_⟩,
    fun t => ⟨fun other => notePacket_other other t, ?_⟩, fun _ => takeResponse_of_no_error,
    fun _ _ => takeResponse_of_error⟩
  · rintro ⟨a, p, x, rfl⟩
    exact port.trans (runPortCode_packet hi active)
  · rw [port, runPortCode_command (s := s.setInputs rest) hi active command]
    exact ⟨fun t h => by rw [h]; rfl, fun r h => by rw [h]; rfl⟩
  · rintro o r rfl
    exact ⟨ownPacket t.host o r, rfl, ownPacket_iff t.host o r⟩

end Sys2Proof.Machine
end

section
/-!
ENC (40_address_encoder.md): the outcomes of the rule, the command, and the counters it agrees with.
-/

namespace Sys2Proof.Machine

/-! The outcomes of ENC, one per branch of R111; `encodeAddress_ok` is the third. -/

theorem encodeAddress_of_neg {offset : Int} (h : offset < 0) : encodeAddress offset = .error .encBelowZero :=
  if_pos h

theorem encodeAddress_of_gt {offset : Int} (h : 1048576 < offset) :
    encodeAddress offset = .error .encAboveMax := by
  have notNeg : ¬ offset < 0 := by omega
  unfold encodeAddress
  rw [if_neg notNeg]
  exact if_pos h

theorem runEnc_of_ok {offset : Int} {a : Byte × Byte × Byte} (h : encodeAddress offset = .ok a) (s : State) :
    runEnc offset s = s.setRsp (some (.ok (addressResult a))) := by
  simp only [runEnc, h, respond]

theorem runEnc_of_error {offset : Int} {f : Failure} (h : encodeAddress offset = .error f) (s : State) :
    runEnc offset s = s.setRsp (some (.error f)) := by
  simp only [runEnc, h, raise]

/-- Settles O4: either outcome of the rule is a response that was found without the state. -/
theorem encIsPure : Obligations.EncIsPure := by
  intro offset
  cases outcome : encodeAddress offset with
  | ok a => exact ⟨_, runEnc_of_ok outcome⟩
  | error f => exact ⟨_, runEnc_of_error outcome⟩

/-- Settles O3: a failing check each on either side, and between them the formulas as divisions. -/
theorem encFunctionalLevel : Obligations.EncFunctionalLevel := by
  intro offset s
  refine ⟨fun neg => ?_, fun above => ?_, fun nonneg inRange => ?_⟩
  · have failed := encodeAddress_of_neg neg
    exact ⟨failed, runEnc_of_error failed s, rfl, rfl, rfl⟩
  · have failed := encodeAddress_of_gt above
    exact ⟨failed, runEnc_of_error failed s, rfl, rfl, rfl⟩
  · obtain ⟨o, rfl⟩ := Int.eq_ofNat_of_zero_le nonneg
    obtain ⟨m, d, l⟩ := toNat_addressBytes o
    refine ⟨(addressBytes o).1, (addressBytes o).2.1, (addressBytes o).2.2, encodeAddress_ok (by omega),
      ?_, ?_, ?_, ?_⟩
    all_goals omega

/-- The three bytes of a 24-bit operand are the operand again (R115). -/
theorem addressResult_offset (o : Offset) : addressResult (addressBytes o.toNat) = o := by
  rw [addressBytes_offset]
  exact append_address_bytes o

/-- Settles O5: the operand is no less than 0, so the check of the upper bound alone is left, and below it the
result is the operand. -/
theorem encCommandAnswers : Obligations.EncCommandAnswers := by
  intro offset s
  refine ⟨fun inRange => ?_, fun above => ?_⟩
  · have bytes := encodeAddress_ok inRange
    exact ⟨_, _, _, bytes, addressResult_offset offset, congrArg Host.Outcome.next (runEnc_of_ok bytes s)⟩
  · have failed : encodeAddress (zext offset) = .error .encAboveMax := encodeAddress_of_gt (Int.ofNat_lt.2 above)
    exact ⟨congrArg Host.Outcome.next (runEnc_of_error failed s), rfl, rfl, rfl⟩

/-! The counters of R114. Both step the bytes of a number to those of the next one, without a bound: past 24 bits
the high byte of `addressBytes` wraps as the counters do. -/

/-- The three bytes of R112, each as a number modulo 256. -/
theorem addressBytes_eq_ofNat (n : Nat) :
    addressBytes n = (BitVec.ofNat 8 (n / 256 / 256), BitVec.ofNat 8 (n / 256), BitVec.ofNat 8 n) := by
  obtain ⟨m, d, l⟩ := toNat_addressBytes n
  refine Prod.ext ?_ (Prod.ext ?_ ?_) <;> apply BitVec.eq_of_toNat_eq
  · rw [m, BitVec.toNat_ofNat, Nat.div_div_eq_div_mul]
  · rw [d, BitVec.toNat_ofNat]
  · rw [l, BitVec.toNat_ofNat]

/-- A counter byte carries when it is the last of its 256 values. -/
theorem ofNat_eq_0xFF_iff (n : Nat) : BitVec.ofNat 8 n = 0xFF#8 ↔ n % 256 = 255 := by
  rw [← BitVec.toNat_inj, BitVec.toNat_ofNat]
  rfl

/-- The counter byte after a carry. -/
theorem ofNat_add_one_of_carry {n : Nat} (h : n % 256 = 255) : BitVec.ofNat 8 (n + 1) = 0#8 := by
  apply BitVec.eq_of_toNat_eq
  rw [BitVec.toNat_ofNat, BitVec.toNat_ofNat]
  omega

/-- One step of the per-packet counter counts the two high bytes up. -/
theorem packetCounterStep_ofNat (n : Nat) (l : Byte) :
    packetCounterStep (BitVec.ofNat 8 (n / 256), BitVec.ofNat 8 n, l) =
      (BitVec.ofNat 8 ((n + 1) / 256), BitVec.ofNat 8 (n + 1), l) := by
  unfold packetCounterStep
  by_cases carry : n % 256 = 255
  · have high : (n + 1) / 256 = n / 256 + 1 := by omega
    rw [if_pos ((ofNat_eq_0xFF_iff n).2 carry), ofNat_add_one_of_carry carry, high, BitVec.ofNat_add]
  · have high : (n + 1) / 256 = n / 256 := by omega
    rw [if_neg (mt (ofNat_eq_0xFF_iff n).1 carry), high, BitVec.ofNat_add]

/-- The carry out of the low byte is a step of the per-packet counter. -/
theorem counterStep_eq_ite_packetCounterStep (c : Byte × Byte × Byte) : counterStep c =
    if c.2.2 = 0xFF#8 then packetCounterStep (c.1, c.2.1, 0#8) else (c.1, c.2.1, c.2.2 + 1#8) := rfl

theorem counterStep_addressBytes (n : Nat) : counterStep (addressBytes n) = addressBytes (n + 1) := by
  rw [counterStep_eq_ite_packetCounterStep, addressBytes_eq_ofNat, addressBytes_eq_ofNat]
  by_cases carry : n % 256 = 255
  · have high : (n + 1) / 256 = n / 256 + 1 := by omega
    rw [if_pos ((ofNat_eq_0xFF_iff n).2 carry), packetCounterStep_ofNat, ofNat_add_one_of_carry carry, high]
  · have high : (n + 1) / 256 = n / 256 := by omega
    rw [if_neg (mt (ofNat_eq_0xFF_iff n).1 carry), high, BitVec.ofNat_add]

theorem packetCounterStep_addressBytes (n : Nat) :
    packetCounterStep (addressBytes n) = addressBytes (n + 256) := by
  have low : BitVec.ofNat 8 (n + 256) = BitVec.ofNat 8 n := by simp [BitVec.ofNat_add]
  rw [addressBytes_eq_ofNat, addressBytes_eq_ofNat, packetCounterStep_ofNat, low,
    Nat.add_div_right n (by decide)]

theorem counterAfter_eq (o : Nat) : counterAfter o = addressBytes o := by
  induction o with
  | zero => rfl
  | succ o ih => rw [counterAfter, ih, counterStep_addressBytes]

theorem packetCounterAfter_eq (i : Nat) : packetCounterAfter i = addressBytes (256 * i) := by
  induction i with
  | zero => rfl
  | succ i ih => rw [packetCounterAfter, ih, packetCounterStep_addressBytes, Nat.mul_succ]

/-- Settles O6: by induction on the increments, the counters hold the address bytes of what they counted. -/
theorem encAgreesWithIncrementingCounters : Obligations.EncAgreesWithIncrementingCounters := by
  refine ⟨fun o inRange => ?_, fun i inRange => ?_, ?_⟩
  · rw [counterAfter_eq, encodeAddress_ok inRange]
  · rw [packetCounterAfter_eq, encodeAddress_ok (by omega)]
  · rw [counterAfter_eq]
    decide

end Sys2Proof.Machine
end

section
/-!
REV (41_bit_reversal.md): the command, its binding to the command port, and the table it reads.
-/

namespace Sys2Proof.Machine

/-- The bits that REV reserves are the fields `rev`, `count` and the high part of the argument (30_encoding.md R88). -/
theorem reservedBits_eq_zero_iff (w : CommandWord) :
    w.extractLsb' 8 26 = 0#26 ↔ revField w = 0#1 ∧ countField w = 0#9 ∧ argHigh w = 0#16 := by
  have bits : (w.extractLsb' 8 26).toNat = w.toNat / 256 % 2 ^ 26 := by simp [Nat.shiftRight_eq_div_pow]
  simp only [← BitVec.toNat_inj, bits, toNat_revField, toNat_countField, toNat_argHigh, BitVec.toNat_ofNat]
  omega

/-- Settles O8: with the reserved bits 0 the word matches the row of REV, and with one of them set it violates R94. -/
theorem revPortBinding : Obligations.RevPortBinding := by
  intro w s (op : opField w = 1#2)
  refine ⟨fun zero => ?_, fun set => ?_⟩
  · have row := (matches_rev_iff w).2 ⟨op, (reservedBits_eq_zero_iff w).1 zero⟩
    obtain ⟨-, decoded, -⟩ := wordDecodesByItsRow w
    simp only [runCode, decode, decoded row]
    rfl
  · have violates : ReservedSet w := by
      rw [ne_eq, reservedBits_eq_zero_iff] at set
      simpa [ReservedSet, op, bit_eq_one_iff, imp_iff_not_or, or_assoc] using set
    obtain ⟨illegal, -⟩ := reservedFieldsAreIllegal.1 w s
    exact illegal violates

/-- Settles O7: the entry that LUT holds at the byte is the one that the command answers. -/
theorem revCommandAnswers : Obligations.RevCommandAnswers :=
  fun b s => ⟨reverse b, memRead_lut b s, getLsbD_reverse b, rfl⟩

/-! The table of R133. All but its fixed points and its sum follow from the bit swap of `getLsbD_reverse`. -/

theorem reverse_involutive : Function.Involutive reverse := by
  intro b
  refine BitVec.eq_of_getLsbD_eq fun i hi => ?_
  have back : 7 - (7 - i) = i := by omega
  rw [getLsbD_reverse _ i hi, getLsbD_reverse b _ (by omega), back]

/-- Bit positions 0 to 7, each swapped with its mirror, are the same positions. -/
theorem map_mirror_perm : ((List.range 8).map (7 - ·)).Perm (List.range 8) := by
  decide

theorem countP_getLsbD_reverse (b : Byte) :
    (List.range 8).countP (fun i => (reverse b).getLsbD i) = (List.range 8).countP fun i => b.getLsbD i :=
  calc (List.range 8).countP (fun i => (reverse b).getLsbD i)
    _ = (List.range 8).countP (fun i => b.getLsbD (7 - i)) :=
      List.countP_congr fun i hi => by rw [getLsbD_reverse b i (List.mem_range.1 hi)]
    _ = ((List.range 8).map (7 - ·)).countP (fun i => b.getLsbD i) := List.countP_map.symm
    _ = (List.range 8).countP (fun i => b.getLsbD i) := map_mirror_perm.countP_eq _

/-- Bit 0 of an entry is bit 7 of the byte. -/
theorem reverse_odd_iff (b : Byte) : (reverse b).toNat % 2 = 1 ↔ 128 ≤ b.toNat := by
  have low : (reverse b).getLsbD 0 = b.getLsbD 7 := getLsbD_reverse b 0 (by decide)
  have high : b.getLsbD 7 = decide (128 ≤ b.toNat) := b.msb_eq_getLsbD_last.symm.trans b.msb_eq_decide
  rw [high, ← BitVec.testBit_toNat, Nat.testBit_zero] at low
  exact decide_eq_decide.1 low

/-- The bytes that read the same in both directions. -/
theorem reverse_eq_self_iff : ∀ b : Byte, reverse b = b ↔
    b ∈ [0x00#8, 0x18#8, 0x24#8, 0x3C#8, 0x42#8, 0x5A#8, 0x66#8, 0x7E#8,
      0x81#8, 0x99#8, 0xA5#8, 0xBD#8, 0xC3#8, 0xDB#8, 0xE7#8, 0xFF#8] := by
  decide +kernel

/-- Settles O9: the swap undoes itself, so that the table is a bijection, and moves no bit out of the byte; the fixed
points and the sum are read off the table. -/
theorem lutProperties : Obligations.LutProperties := by
  refine ⟨reverse_involutive, rfl, fun r => ⟨reverse r, reverse_involutive r, fun c hc => ?_⟩, reverse_eq_self_iff,
    fun b => ?_, reverse_odd_iff, by decide +kernel⟩
  · exact reverse_involutive.eq_iff.1 hc
  · rw [← List.countP_eq_length_filter, ← List.countP_eq_length_filter]
    exact countP_getLsbD_reverse b

end Sys2Proof.Machine
end

section
/-!
SUM (42_checksum.md): the outcome of each check, the accumulation as the sum of the covered bytes, and the command.
-/

namespace Sys2Proof.Machine

/-! The outcomes of SUM, one per branch of R151 and R152. -/

theorem checksum_of_neg {buffer : Image} {offset count : Int} (h : offset < 0) :
    checksum buffer offset count = .error .sumOffsetNegative :=
  if_pos h

theorem checksum_of_count_le_zero {buffer : Image} {offset count : Int} (nonneg : 0 ≤ offset) (h : count ≤ 0) :
    checksum buffer offset count = .error .sumCountNotPositive := by
  unfold checksum
  rw [if_neg (Int.not_lt.2 nonneg), if_pos h]

theorem checksum_of_past_end {buffer : Image} {offset count : Int} (nonneg : 0 ≤ offset) (pos : 0 < count)
    (h : (buffer.len : Int) < offset + count) : checksum buffer offset count = .error .sumPastEnd := by
  unfold checksum
  rw [if_neg (Int.not_lt.2 nonneg), if_neg (Int.not_le.2 pos)]
  exact if_pos h

theorem checksum_ok {buffer : Image} {offset count : Nat} (pos : 0 < count) (inBuffer : offset + count ≤ buffer.len) :
    checksum buffer offset count = .ok (accumulate (Memory.slice buffer.mem offset count)) := by
  have nonneg : ¬ (offset : Int) < 0 := by omega
  have notZero : ¬ (count : Int) ≤ 0 := by omega
  have notPast : ¬ (offset : Int) + count > buffer.len := by omega
  simp only [checksum, if_neg nonneg, if_neg notZero, if_neg notPast, Int.toNat_natCast]

theorem runSum_of_ok {buffer : Image} {offset count : Int} {v : Byte} (h : checksum buffer offset count = .ok v)
    (s : State) : runSum buffer offset count s = (s.setAcc v).setRsp (some (.ok (byteResult v))) := by
  simp only [runSum, h, respond]

theorem runSum_of_error {buffer : Image} {offset count : Int} {f : Failure}
    (h : checksum buffer offset count = .error f) (s : State) :
    runSum buffer offset count s = s.setRsp (some (.error f)) := by
  simp only [runSum, h, raise]

/-! The accumulation as a sum: of bytes, and of numbers reduced once at the end. -/

theorem accumulate_eq_sum (l : List Byte) : accumulate l = l.sum :=
  List.sum_eq_foldl.symm

theorem toNat_accumulate (l : List Byte) : (accumulate l).toNat = (l.map BitVec.toNat).sum % 256 := by
  rw [accumulate, toNat_foldl_accStep]
  simp

/-- The sum of R152 over the bytes of a range, read one by one. -/
def rangeTotal (m : Memory) (offset count : Nat) : Nat :=
  ((List.range count).map fun k => (Memory.read m (offset + k)).toNat).sum

theorem accumulate_slice (m : Memory) (offset count : Nat) :
    accumulate (Memory.slice m offset count) = BitVec.ofNat 8 (rangeTotal m offset count % 256) := by
  apply BitVec.eq_of_toNat_eq
  rw [toNat_accumulate, Memory.slice_eq_map, List.map_map, BitVec.toNat_ofNat, Nat.mod_mod]
  rfl

/-- A byte as a result field is the same number in 24 bits (30_encoding.md R91). -/
theorem toNat_byteResult (b : Byte) : (byteResult b).toNat = b.toNat := by
  rw [byteResult, BitVec.toNat_append]
  simp

theorem byteResult_ofNat (n : Nat) : byteResult (BitVec.ofNat 8 (n % 256)) = BitVec.ofNat 24 (n % 256) := by
  apply BitVec.eq_of_toNat_eq
  rw [toNat_byteResult, BitVec.toNat_ofNat, BitVec.toNat_ofNat]
  omega

/-- SUM over a range in the buffer (R152, R158). -/
theorem runSum_of_range {buffer : Image} {offset count : Nat} (pos : 0 < count)
    (inBuffer : offset + count ≤ buffer.len) (s : State) :
    runSum buffer offset count s =
      (s.setAcc (BitVec.ofNat 8 (rangeTotal buffer.mem offset count % 256))).setRsp
        (some (.ok (BitVec.ofNat 24 (rangeTotal buffer.mem offset count % 256)))) := by
  rw [runSum_of_ok (checksum_ok pos inBuffer), accumulate_slice, byteResult_ofNat]

/-- Settles O10: one case per check, in their order, and the sum when none fails. -/
theorem sumFunctionalLevel : Obligations.SumFunctionalLevel := by
  intro buffer offset count s
  refine ⟨?_, rfl, rfl, rfl, rfl, rfl, rfl⟩
  split_ifs with neg notPos past
  · exact runSum_of_error (checksum_of_neg neg) s
  · exact runSum_of_error (checksum_of_count_le_zero (Int.not_lt.1 neg) notPos) s
  · exact runSum_of_error (checksum_of_past_end (Int.not_lt.1 neg) (Int.not_le.1 notPos) past) s
  · obtain ⟨o, rfl⟩ := Int.eq_ofNat_of_zero_le (Int.not_lt.1 neg)
    obtain ⟨n, rfl⟩ := Int.eq_ofNat_of_zero_le (Int.not_le.1 notPos).le
    exact runSum_of_range (by omega) (by omega) s

theorem exec_sum_of_pktv {s : State} (valid : s.pktv = true) (offset : Offset) (count : BitVec 9) :
    exec (.sum offset count) s = .next (runSum (pktImage s) (zext offset) (zext count) s) :=
  if_pos valid

theorem exec_sum_of_not_pktv {s : State} (invalid : s.pktv = false) (offset : Offset) (count : BitVec 9) :
    exec (.sum offset count) s = .next (s.setRsp (some (.error .noPacket))) :=
  if_neg (ne_true_of_eq_false invalid)

/-- Settles O11: the operands of the command are a range of the packet buffer. -/
theorem sumCommandCompletes : Obligations.SumCommandCompletes := by
  intro offset count s valid pos inPacket total
  rw [exec_sum_of_pktv valid]
  exact congrArg Host.Outcome.next (runSum_of_range (buffer := pktImage s) pos inPacket s)

/-- Settles O12: PKTV is checked first; the offset is no less than 0, so the checks of the count and of the end
are left. -/
theorem sumCommandFails : Obligations.SumCommandFails := by
  intro offset count s
  have nonneg : 0 ≤ zext offset := Int.natCast_nonneg _
  refine ⟨fun invalid => exec_sum_of_not_pktv invalid offset count, fun valid zero => ?_, fun valid pos past => ?_⟩
  · have failed : checksum (pktImage s) (zext offset) (zext count) = .error .sumCountNotPositive :=
      checksum_of_count_le_zero nonneg (by simp [zext, zero])
    rw [exec_sum_of_pktv valid, runSum_of_error failed]
  · have failed : checksum (pktImage s) (zext offset) (zext count) = .error .sumPastEnd :=
      checksum_of_past_end nonneg (Int.ofNat_lt.2 pos) (Int.ofNat_lt.2 past)
    rw [exec_sum_of_pktv valid, runSum_of_error failed]

/-- Settles O13: the accumulation as a number, the slice byte by byte, and for either outcome of the rule what is
written: a failure leaves in ACC what was there. -/
theorem checksumIsThePlainSum : Obligations.ChecksumIsThePlainSum := by
  refine ⟨toNat_accumulate, fun buffer offset count pos inBuffer => ?_, fun buffer offset count s => ?_⟩
  · rw [checksum_ok pos inBuffer, Memory.slice_eq_map]
  · cases outcome : checksum buffer offset count with
    | ok v => exact ⟨v, _, runSum_of_ok outcome s⟩
    | error f => exact ⟨s.acc, _, runSum_of_error outcome s⟩

/-! The consequences of R155. The sum depends on how often each value occurs alone, which REV and the order of the
bytes leave as it is. -/

theorem accumulate_perm {l₁ l₂ : List Byte} (h : l₁.Perm l₂) : accumulate l₁ = accumulate l₂ := by
  rw [accumulate_eq_sum, accumulate_eq_sum, h.sum_eq]

theorem accumulate_append (l₁ l₂ : List Byte) : accumulate (l₁ ++ l₂) = accumulate l₁ + accumulate l₂ := by
  simp only [accumulate_eq_sum, List.sum_append]

/-- 256 times a byte is a multiple of the modulus. -/
theorem accumulate_replicate_256 (v : Byte) : accumulate (List.replicate 256 v) = 0#8 := by
  apply BitVec.eq_of_toNat_eq
  rw [toNat_accumulate, List.map_replicate, List.sum_replicate_nat, Nat.mul_mod_right]
  rfl

/-- Every byte value once, in increasing order. -/
def allBytes : List Byte := (List.finRange 256).map BitVec.ofFin

theorem count_allBytes (v : Byte) : allBytes.count v = 1 := by
  have inj : Function.Injective (BitVec.ofFin (w := 8)) := fun _ _ => congrArg BitVec.toFin
  exact (List.count_map_of_injective _ _ inj v.toFin).trans (List.count_finRange _)

theorem accumulate_allBytes : accumulate allBytes = 0x80#8 := by
  decide +kernel

/-- REV permutes a range that holds every value equally often (41_bit_reversal.md R133: REV is its own inverse). -/
theorem map_reverse_perm {l : List Byte} (h : ∀ v w : Byte, l.count v = l.count w) : (l.map reverse).Perm l := by
  refine List.perm_iff_count.2 fun v => ?_
  calc (l.map reverse).count v
    _ = (l.map reverse).count (reverse (reverse v)) := by rw [reverse_involutive v]
    _ = l.count (reverse v) := List.count_map_of_injective l reverse reverse_involutive.injective _
    _ = l.count v := h _ _

/-- Settles O14: the sum in a commutative ring, over a permuted list wherever only the values' counts are known. -/
theorem checksumProperties : Obligations.ChecksumProperties := by
  refine ⟨fun _ _ => accumulate_perm, fun buffer offset inBuffer => ?_, accumulate_append,
    accumulate_replicate_256, fun l once => ?_, fun l equal => accumulate_perm (map_reverse_perm equal)⟩
  · have one := checksum_ok (count := 1) Nat.one_pos inBuffer
    simpa [Memory.slice_succ, accumulate_eq_sum] using one
  · have perm : l.Perm allBytes := List.perm_iff_count.2 fun v => (once v).trans (count_allBytes v).symm
    rw [accumulate_perm perm, accumulate_allBytes]

end Sys2Proof.Machine
end

section
/-!
PKT (43_packet_formatter.md): the outcomes of its rule, what a PKT that ran leaves behind, the corner cases of R183,
the byte-serial sequence of R180, and the host's read-out (R182).
-/

namespace Sys2Proof.Machine

/-! The failures of PKT, one per check of R171; `buildPacket_ok` is the other outcome. -/

theorem buildPacket_of_misaligned {rom : Image} {offset : Int} {rev : Bool} (h : offset % 256 ≠ 0) :
    buildPacket rom offset rev = .error .pktMisaligned :=
  if_pos h

theorem buildPacket_of_past_end {rom : Image} {offset : Int} {rev : Bool} (aligned : offset % 256 = 0)
    (h : (rom.len : Int) < offset + 256) : buildPacket rom offset rev = .error .pktPastEnd := by
  unfold buildPacket
  exact (if_neg (not_not_intro aligned)).trans (if_pos h)

theorem buildPacket_of_neg {rom : Image} {offset : Int} {rev : Bool} (aligned : offset % 256 = 0)
    (inRom : offset + 256 ≤ rom.len) (h : offset < 0) : buildPacket rom offset rev = .error .pktOffsetNegative := by
  unfold buildPacket
  exact (if_neg (not_not_intro aligned)).trans ((if_neg (Int.not_lt.2 inRom)).trans (if_pos h))

/-- Settles O17: an operand is no less than 0, so a check of the alignment or of the end is the one that fails. -/
theorem failedPktClearsOnlyPktv : Obligations.FailedPktClearsOnlyPktv := by
  intro offset rev s valid failing
  have answer {f : Failure} (failed : buildPacket s.rom (zext offset) rev = .error f) :
      exec (.pkt offset rev) s = .next ((s.setPktv false).setRsp (some (.error f))) ∧
        ∀ k, runReadOut k ((s.setPktv false).setRsp (some (.error f))) = .refused .packetUnreadable :=
    ⟨runPkt_of_error valid failed, runReadOut_unreadable rfl⟩
  by_cases aligned : offset.toNat % 256 = 0
  · have past : s.rom.len < offset.toNat + 256 := Nat.not_le.1 fun inRom => failing ⟨aligned, inRom⟩
    exact ⟨.pktPastEnd, .inr ⟨rfl, aligned, past⟩,
      answer (buildPacket_of_past_end (by simp only [zext]; omega) (by simp only [zext]; omega))⟩
  · exact ⟨.pktMisaligned, .inl ⟨rfl, aligned⟩, answer (buildPacket_of_misaligned (by simp only [zext]; omega))⟩

/-! The packet as a list (R172 to R176). -/

/-- Packet byte `4 + j` is byte `j` of the chunk, reversed if the flag says so (R175). -/
theorem getD_packet_payload (a : Byte × Byte × Byte) (rom : Image) (offset : Nat) (rev : Bool) {j : Nat}
    (hj : j < 256) : (framePacket a (chunkPayload rom offset rev)).getD (4 + j) 0#8 =
      payloadByte rev (Memory.read rom.mem (offset + j)) := by
  rw [getD_framePacket_payload _ _ (by simpa using hj), getD_chunkPayload _ _ _ hj]

/-- The checksum byte is the answer of SUM over bytes 1 to 259 (R176). -/
theorem checksum_framePacket (a : Byte × Byte × Byte) {payload : List Byte} (len : payload.length = 256) :
    checksum (Image.ofBytes (framePacket a payload)) 1 259 = .ok ((framePacket a payload).getD 260 0#8) := by
  rw [getD_framePacket_checksum _ _ len, ← slice_framePacket _ _ len]
  exact checksum_ok (by decide) (by simp [Image.ofBytes, len])

/-- Settles O16: one case per check, in their order, and the packet's parts when none fails. -/
theorem pktFunctionalLevel : Obligations.PktFunctionalLevel := by
  intro offset rev s valid
  refine ⟨fun misaligned => runPkt_of_error valid (buildPacket_of_misaligned misaligned),
    fun aligned past => runPkt_of_error valid (buildPacket_of_past_end aligned past),
    fun aligned inRom neg => runPkt_of_error valid (buildPacket_of_neg aligned inRom neg),
    fun aligned inRom nonneg => ?_, rfl, rfl, rfl, rfl, rfl, rfl⟩
  obtain ⟨o, rfl⟩ := Int.eq_ofNat_of_zero_le nonneg
  obtain ⟨-, romMax⟩ := (Image.valid_iff s.rom).1 valid
  refine ⟨framePacket (addressBytes o) (chunkPayload s.rom o rev), _, _, _, by simp,
    encodeAddress_ok (by omega), rfl, fun j hj => ?_, checksum_framePacket _ (length_chunkPayload ..),
    runPkt_of_ok valid (buildPacket_ok rev valid (by omega) (by omega))⟩
  have inPacket : 4 + j < (framePacket (addressBytes o) (chunkPayload s.rom o rev)).length := by
    simp
    omega
  rw [List.getElem?_eq_getElem inPacket, ← List.getD_eq_getElem _ 0#8 inPacket, getD_packet_payload _ _ _ _ hj]
  rfl

/-! What a PKT that ran leaves behind (R172, R178, R179). -/

/-- `t` is the state that `PKT offset, rev` answers in `s` when its checks pass. -/
structure Built (offset : Offset) (rev : Bool) (s t : State) : Prop where
  pkt : t.pkt = Memory.ofBytes (framePacket (addressBytes offset.toNat) (chunkPayload s.rom offset.toNat rev))
  ok : PacketOk t
  pktv : t.pktv = true
  acc : t.acc = Memory.read t.pkt 260
  off : t.off = offset
  reven : t.reven = rev
  rsp : t.rsp = some (.ok 0#24)
  rom : t.rom = s.rom
  line : t.line = s.line
  host : t.host = s.host
  inputs : t.inputs = s.inputs

theorem built_of_exec {offset : Offset} {rev : Bool} {s t : State} (h : PktRuns s offset)
    (ht : exec (.pkt offset rev) s = .next t) : Built offset rev s t := by
  obtain ⟨off, pkt⟩ := built_of_pktRuns h ht
  obtain ⟨valid, aligned, inRom⟩ := h
  have ok : PacketOk t := packetOk_of_buildPacket valid (by rw [off, buildPacket_ok rev valid aligned inRom]) pkt
  rw [exec_pkt_ok rev valid aligned inRom] at ht
  cases ht
  refine ⟨pkt, ok, rfl, ?_, off, rfl, rfl, rfl, rfl, rfl, rfl⟩
  rw [pkt, Memory.read_ofBytes]
  simp [respond, storePacket, setPacketValid]

theorem exists_built {s : State} {offset : Offset} (h : PktRuns s offset) (rev : Bool) :
    ∃ t, exec (.pkt offset rev) s = .next t ∧ Built offset rev s t := by
  obtain ⟨valid, aligned, inRom⟩ := h
  have runs := exec_pkt_ok rev valid aligned inRom
  exact ⟨_, runs, built_of_exec ⟨valid, aligned, inRom⟩ runs⟩

section
variable {offset : Offset} {rev : Bool} {s t : State}

/-- The address bytes, most significant first (R174, 20_memory.md R54). -/
theorem Built.address (h : Built offset rev s t) : Memory.read t.pkt 1 = offset.extractLsb' 16 8 ∧
    Memory.read t.pkt 2 = offset.extractLsb' 8 8 ∧ Memory.read t.pkt 3 = offset.extractLsb' 0 8 := by
  simp only [h.pkt, Memory.read_ofBytes, addressBytes_offset]
  exact ⟨rfl, rfl, rfl⟩

/-- The payload (R175). -/
theorem Built.payload (h : Built offset rev s t) {j : Nat} (hj : j < 256) :
    Memory.read t.pkt (4 + j) = payloadByte rev (Memory.read s.rom.mem (offset.toNat + j)) := by
  rw [h.pkt, Memory.read_ofBytes]
  exact getD_packet_payload _ _ _ _ hj

/-- PKT writes no space but PKT, and of PKT the addresses 0 to 260. -/
theorem Built.memRead_other (h : Built offset rev s t) {sp : Space} {a : Nat} (other : sp = .pkt → 261 ≤ a) :
    memRead sp a t = memRead sp a s := by
  cases sp with
  | romimg => simp only [memRead, h.rom]
  | lut => rfl
  | pkt =>
    have outside : ¬ a < Config.pktLen := Nat.not_lt.2 (other rfl)
    simp only [memRead, if_neg outside]

end

/-- Settles O15: the parts of the packet and the written elements, as `Built` has them. -/
theorem pktCommandBuildsThePacket : Obligations.PktCommandBuildsThePacket := by
  intro offset rev s h
  obtain ⟨t, ht, built⟩ := exists_built h rev
  obtain ⟨msb, mid, lsb⟩ := built.address
  have total : (Memory.read t.pkt 260).toNat = rangeTotal t.pkt 1 259 % 256 := by
    rw [built.ok.checksum, accumulate_slice, BitVec.toNat_ofNat, Nat.mod_mod]
  exact ⟨t, ht, built.ok.command, msb, mid, lsb, fun _ hj => built.payload hj, total, built.pktv, built.acc,
    built.off, built.reven, built.rsp, built.rom, built.line, built.host, built.inputs,
    fun _ _ other => built.memRead_other other⟩

/-- Settles O23: SUM over bytes 1 to 259 finds a readable packet and adds up what its checksum is the sum of. -/
theorem sumOfTheWholePacketIsItsChecksum : Obligations.SumOfTheWholePacketIsItsChecksum := by
  intro offset rev s t h ht
  have built := built_of_exec h ht
  have total : checksum (pktImage t) (1 : Nat) (259 : Nat) = .ok (Memory.read t.pkt 260) := by
    rw [checksum_ok (by decide) (show 1 + 259 ≤ 261 by decide), built.ok.checksum]
    rfl
  rw [exec_sum_of_pktv built.pktv]
  exact congrArg Host.Outcome.next (runSum_of_ok total t)

/-! Which packets are equal, and the corner cases of R183: the payload byte by byte. -/

/-- Two payloads are equal when their bytes are. -/
theorem chunkPayload_congr {rom rom' : Image} {offset : Nat} {rev rev' : Bool}
    (h : ∀ j < 256, payloadByte rev (Memory.read rom.mem (offset + j)) =
      payloadByte rev' (Memory.read rom'.mem (offset + j))) :
    chunkPayload rom offset rev = chunkPayload rom' offset rev' := by
  rw [chunkPayload, chunkPayload, Memory.slice_eq_map, Memory.slice_eq_map, List.map_map, List.map_map]
  exact List.map_congr_left fun j hj => h j (List.mem_range.1 hj)

/-- Settles O19: the images agree on the chunk, so the payloads are equal. -/
theorem packetDependsOnItsChunkOnly : Obligations.PacketDependsOnItsChunkOnly := by
  intro offset rev s s' h h' same
  obtain ⟨t, ht, built⟩ := exists_built h rev
  obtain ⟨t', ht', built'⟩ := exists_built h' rev
  have payload : chunkPayload s.rom offset.toNat rev = chunkPayload s'.rom offset.toNat rev :=
    chunkPayload_congr fun j hj => by rw [same j hj]
  refine ⟨t, t', ht, ht', ?_, Memory.length_slice _ _ _, built.line, built.host⟩
  rw [built.pkt, built'.pkt, payload]

/-- Settles O22: REV leaves every byte of the chunk as it is, so the payloads are equal. -/
theorem selfReversedChunkIgnoresTheFlag : Obligations.SelfReversedChunkIgnoresTheFlag := by
  intro offset s t t' h selfReversed ht ht'
  have payload : chunkPayload s.rom offset.toNat false = chunkPayload s.rom offset.toNat true :=
    chunkPayload_congr fun j hj => (selfReversed j hj).symm
  rw [(built_of_exec h ht).pkt, (built_of_exec h ht').pkt, payload]

/-- The payload of a chunk of equal bytes. -/
theorem chunkPayload_of_constant {rom : Image} {offset : Nat} (rev : Bool) {v : Byte}
    (h : ∀ j < 256, Memory.read rom.mem (offset + j) = v) :
    chunkPayload rom offset rev = List.replicate 256 (payloadByte rev v) := by
  refine List.eq_replicate_iff.2 ⟨length_chunkPayload .., fun b hb => ?_⟩
  rw [chunkPayload, Memory.slice_eq_map, List.map_map] at hb
  obtain ⟨j, hj, rfl⟩ := List.mem_map.1 hb
  exact congrArg (payloadByte rev) (h j (List.mem_range.1 hj))

/-- Settles O21: 256 equal bytes add 0, so the address bytes are left. -/
theorem constantChunkChecksum : Obligations.ConstantChunkChecksum := by
  intro offset rev v s t h constant ht
  have built := built_of_exec h ht
  have len := length_chunkPayload s.rom offset.toNat rev
  obtain ⟨msb, mid, lsb⟩ := built.address
  calc Memory.read t.pkt 260
    _ = accumulate ([Memory.read t.pkt 1, Memory.read t.pkt 2, Memory.read t.pkt 3] ++
          chunkPayload s.rom offset.toNat rev) := by
      rw [built.ok.checksum, msb, mid, lsb, built.pkt, slice_framePacket _ _ len, addressBytes_offset]
      rfl
    _ = accumulate [Memory.read t.pkt 1, Memory.read t.pkt 2, Memory.read t.pkt 3] := by
      rw [accumulate_append, chunkPayload_of_constant rev constant, accumulate_replicate_256, BitVec.add_zero]
    _ = Memory.read t.pkt 1 + Memory.read t.pkt 2 + Memory.read t.pkt 3 := by
      simp [accumulate_eq_sum, BitVec.add_assoc]

/-! The byte-serial sequence (R180, R181) against the state `t` that the atomic rule answers. -/

/-- After `n` bytes of the sequence, at most 260: those bytes stand in the buffer, ACC holds their sum without
byte 0, and PKTV is 0. -/
structure SerialAt (t : State) (n : Nat) (u : State) : Prop where
  written : ∀ k < n, Memory.read u.pkt k = Memory.read t.pkt k
  pktWf : Memory.wf u.pkt
  pktBelow : Memory.below u.pkt 261
  acc : ∀ m, n = m + 1 → u.acc = accumulate (Memory.slice t.pkt 1 m)
  pktv : u.pktv = false
  off : u.off = t.off
  reven : u.reven = t.reven
  rom : u.rom = t.rom
  line : u.line = t.line
  host : u.host = t.host
  inputs : u.inputs = t.inputs

section
variable {offset : Offset} {rev : Bool} {s t u : State} {n : Nat}

theorem Built.serialAt_zero (h : Built offset rev s t) (pktWf : Memory.wf s.pkt) (pktBelow : Memory.below s.pkt 261) :
    SerialAt t 0 (serialStart offset rev s) :=
  ⟨fun _ hk => absurd hk (Nat.not_lt_zero _), pktWf, pktBelow, fun _ hm => absurd hm (Nat.succ_ne_zero _).symm, rfl,
    h.off.symm, h.reven.symm, h.rom.symm, h.line.symm, h.host.symm, h.inputs.symm⟩

/-- The value of byte `k` depends on the latches, the image and, at byte 260, on ACC. -/
theorem serialValue_congr {k : Nat} (off : u.off = t.off) (reven : u.reven = t.reven) (rom : u.rom = t.rom)
    (acc : k = 260 → u.acc = t.acc) : serialValue k u = serialValue k t := by
  unfold serialValue
  rw [off, reven, rom]
  split_ifs with h0 h1 h2 h3 last
  · rfl
  · rfl
  · rfl
  · rfl
  · exact acc last
  · rfl

/-- With the latches and ACC of the atomic rule the values of R180 are its packet. -/
theorem Built.serialValue_eq (h : Built offset rev s t) {k : Nat} (hk : k < 261) :
    serialValue k t = Memory.read t.pkt k := by
  obtain ⟨msb, mid, lsb⟩ := h.address
  unfold serialValue
  split_ifs with h0 h1 h2 h3 last
  · exact h0 ▸ h.ok.command.symm
  · rw [h.off, h1, msb]
  · rw [h.off, h2, mid]
  · rw [h.off, h3, lsb]
  · rw [last, h.acc]
  · obtain ⟨j, rfl⟩ := Nat.exists_eq_add_of_le (show 4 ≤ k by omega)
    rw [h.payload (by omega), h.off, h.reven, h.rom, show offset.toNat + (4 + j) - 4 = offset.toNat + j by omega]

/-- The byte that the sequence writes next is that of the packet. -/
theorem SerialAt.value (hu : SerialAt t n u) (h : Built offset rev s t) (hn : n ≤ 260) :
    serialValue n u = Memory.read t.pkt n := by
  have acc : n = 260 → u.acc = t.acc := by
    intro last
    rw [hu.acc 259 last, h.acc, h.ok.checksum]
  rw [serialValue_congr hu.off hu.reven hu.rom acc, h.serialValue_eq (Nat.lt_succ_of_le hn)]

/-- The buffer after the next byte, the last one included. -/
theorem SerialAt.read_serialByte (hu : SerialAt t n u) (h : Built offset rev s t) (hn : n ≤ 260) {k : Nat}
    (hk : k < n + 1) : Memory.read (serialByte n u).pkt k = Memory.read t.pkt k := by
  obtain ⟨pkt, -, -⟩ := serialByte_writes n u
  rw [pkt]
  obtain hk | rfl := Nat.lt_succ_iff_lt_or_eq.1 hk
  · rw [Memory.read_write_other hk.ne, hu.written k hk]
  · rw [Memory.read_write_same hu.pktWf, hu.value h hn]

/-- ACC after the next byte: cleared at byte 0, then the sum with one byte more. -/
theorem SerialAt.acc_serialByte (hu : SerialAt t n u) (h : Built offset rev s t) (hn : n < 260) :
    (serialByte n u).acc = accumulate (Memory.slice t.pkt 1 n) := by
  obtain ⟨-, acc, -⟩ := serialByte_writes n u
  rw [acc, serialAcc, if_neg (ne_of_lt hn)]
  cases n with
  | zero => rfl
  | succ m =>
    rw [if_neg (Nat.succ_ne_zero m), hu.value h hn.le, hu.acc m rfl, Memory.slice_append, Nat.add_comm 1 m]
    exact (accumulate_snoc _ _).symm

theorem SerialAt.succ (hu : SerialAt t n u) (h : Built offset rev s t) (hn : n < 260) :
    SerialAt t (n + 1) (serialByte n u) := by
  obtain ⟨rom, off, reven, -, line, host, inputs⟩ := serialByte_keeps n u
  obtain ⟨pkt, -, pktv⟩ := serialByte_writes n u
  refine ⟨fun k => hu.read_serialByte h hn.le, ?_, ?_, ?_, ?_, off.trans hu.off, reven.trans hu.reven,
    rom.trans hu.rom, line.trans hu.line, host.trans hu.host, inputs.trans hu.inputs⟩
  · exact pkt ▸ Memory.wf_write hu.pktWf _ _
  · exact pkt ▸ Memory.below_write hu.pktBelow (by omega) _
  · rintro m ⟨⟩
    exact hu.acc_serialByte h hn
  · rw [pktv, if_neg (ne_of_lt hn), hu.pktv]

theorem Built.serialAt (h : Built offset rev s t) (pktWf : Memory.wf s.pkt) (pktBelow : Memory.below s.pkt 261)
    (hn : n ≤ 260) : SerialAt t n (serialFrom 0 n (serialStart offset rev s)) := by
  induction n with
  | zero => exact h.serialAt_zero pktWf pktBelow
  | succ n ih =>
    rw [serialFrom_succ_last, Nat.zero_add]
    exact (ih (by omega)).succ h hn

/-- Byte 260 completes the state of the atomic rule, but for the response. -/
theorem SerialAt.serialByte_last (hu : SerialAt t 260 u) (h : Built offset rev s t) :
    (serialByte 260 u).setRsp (some (.ok 0#24)) = t := by
  obtain ⟨rom, off, reven, -, line, host, inputs⟩ := serialByte_keeps 260 u
  obtain ⟨pkt, acc, pktv⟩ := serialByte_writes 260 u
  have below : Memory.below (serialByte 260 u).pkt 261 := pkt ▸ Memory.below_write hu.pktBelow (by decide) _
  have below' : Memory.below t.pkt 261 := by
    have := Memory.below_ofBytes (framePacket (addressBytes offset.toNat) (chunkPayload s.rom offset.toNat rev))
    rwa [length_framePacket, length_chunkPayload, ← h.pkt] at this
  have packet : (serialByte 260 u).pkt = t.pkt := by
    refine Memory.ext_read (pkt ▸ Memory.wf_write hu.pktWf _ _) (h.pkt ▸ Memory.wf_ofBytes _) fun k => ?_
    obtain inside | outside := Nat.lt_or_ge k 261
    · exact hu.read_serialByte h le_rfl inside
    · rw [Memory.read_of_below below outside, Memory.read_of_below below' outside]
  have sum : (serialByte 260 u).acc = t.acc := by
    rw [h.acc, h.ok.checksum, ← hu.acc 259 rfl]
    exact acc
  exact State.ext_fields packet (pktv.trans h.pktv.symm) sum (off.trans hu.off) (reven.trans hu.reven) h.rsp.symm
    (rom.trans hu.rom) (line.trans hu.line) (host.trans hu.host) (inputs.trans hu.inputs)

end

/-- Settles O24: 260 bytes by induction, which leave PKTV at 0, and byte 260, which ends in the atomic state. -/
theorem serialSequenceRefinesPkt : Obligations.SerialSequenceRefinesPkt := by
  intro offset rev s h pktWf pktBelow
  obtain ⟨t, ht, built⟩ := exists_built h rev
  have last : serialPkt offset rev s = serialByte 260 (serialFrom 0 260 (serialStart offset rev s)) :=
    serialFrom_succ_last 260 0 _
  refine ⟨?_, fun n hn => (built.serialAt pktWf pktBelow hn).pktv⟩
  rw [ht, last, (built.serialAt pktWf pktBelow le_rfl).serialByte_last built]

/-! The read-out of a readable packet (R182); `runReadOut_unreadable` is the other case. -/

theorem runReadOut_outside {s : State} {k : Nat} (valid : s.pktv = true) (outside : 261 ≤ k) :
    runReadOut k s = .fault (.addressOutsideSpace .pkt k) := by
  have unreadable : memRead .pkt k s = none := if_neg (Nat.not_lt.2 outside)
  simp only [runReadOut, valid, if_true, unreadable]

theorem runReadOut_byte {s : State} {k : Nat} (valid : s.pktv = true) (inside : k < 261) :
    runReadOut k s = .next (s.setHost { s.host with readData := some (Memory.read s.pkt k) }) := by
  have byte : memRead .pkt k s = some (Memory.read s.pkt k) := if_pos inside
  simp only [runReadOut, valid, if_true, byte]

/-- Settles O47: a step on a read-out is the read-out, without its input. -/
theorem readOut : Obligations.ReadOut := by
  intro s k rest next
  have read : step s = runReadOut k (s.setInputs rest) := step_of_inputs next
  rw [read]
  exact ⟨fun invalid => runReadOut_unreadable (s := s.setInputs rest) invalid k,
    runReadOut_outside (s := s.setInputs rest), runReadOut_byte (s := s.setInputs rest)⟩

end Sys2Proof.Machine
end

section
/-!
What one step can do to the host (45_host_environment.md R200 to R225), said once.
-/

namespace Sys2Proof.Machine

/-! Phases (R208). -/

theorem Phase.packetIndex_eq_some_iff {p : Phase} {i : Nat} :
    p.packetIndex = some i ↔ p = .sending i ∨ p = .awaitingAck i ∨ p = .retrying i := by
  cases p <;> simp [Phase.packetIndex]

/-- A phase with a packet index is one of a running session. -/
theorem Phase.active_of_packetIndex {p : Phase} {i : Nat} (h : p.packetIndex = some i) : p.active = true := by
  obtain rfl | rfl | rfl := packetIndex_eq_some_iff.1 h <;> rfl

/-- No packet is in flight after an abort (R220, R222). -/
@[simp] theorem Phase.packetIndex_abort (c : ErrorClass) (p : Phase) : (p.abort c).packetIndex = none := by
  cases p with
  | closing r => cases r <;> rfl
  | _ => rfl

/-- An error aborts a running session, which keeps the failure it has (log 25). -/
theorem Phase.abort_of_active {p : Phase} (active : p.active = true) (c : ErrorClass) :
    ∃ c', p.abort c = .closing (.failure c') ∧
      (p = .closing (.failure c') ∨ c' = c ∧ ∀ c'', p ≠ .closing (.failure c'')) := by
  cases p with
  | idle => cases active
  | closed r => cases active
  | closing r =>
    cases r with
    | success => exact ⟨c, rfl, .inr ⟨rfl, by simp⟩⟩
    | failure c' => exact ⟨c', rfl, .inl rfl⟩
  | _ => exact ⟨c, rfl, .inr ⟨rfl, by simp⟩⟩

theorem setPhase_self {s : State} {p : Phase} (h : s.host.phase = p) : setPhase p s = s := by
  subst h
  rfl

/-! A failed transmission (R212): resend while the limit allows it. -/

theorem retryOrFail_of_lt {s : State} (i : Nat) (left : s.host.resends < s.host.params.maxResends) :
    retryOrFail i s = s.setHost { s.host with phase := .retrying i, resends := s.host.resends + 1 } :=
  if_pos left

theorem retryOrFail_of_le {s : State} (i : Nat) (spent : s.host.params.maxResends ≤ s.host.resends) :
    retryOrFail i s = setPhase (.closing (.failure .protocolError)) s :=
  if_neg (Nat.not_lt.2 spent)

/-! The packet of an index (R210). -/

/-- The packet of index `i` of an image: that of the chunk at `256 * i`. -/
def imagePacket (rom : Image) (i : Nat) (rev : Bool) : List Byte :=
  framePacket (addressBytes (256 * i)) (chunkPayload rom (256 * i) rev)

@[simp] theorem length_imagePacket (rom : Image) (i : Nat) (rev : Bool) : (imagePacket rom i rev).length = 261 := by
  simp [imagePacket]

theorem buildPacket_imagePacket {rom : Image} {i : Nat} (rev : Bool) (valid : rom.valid = true)
    (inRom : i < rom.len / 256) : buildPacket rom (256 * i : Nat) rev = .ok (imagePacket rom i rev) :=
  buildPacket_ok rev valid (by omega) (by omega)

/-- The offset of an index of a ROM image fits the operand field (30_encoding.md R88). -/
theorem toNat_packetOffset {rom : Image} {i : Nat} (valid : rom.valid = true) (inRom : i < rom.len / 256) :
    (BitVec.ofNat 24 (256 * i)).toNat = 256 * i := by
  obtain ⟨-, romMax⟩ := (Image.valid_iff rom).1 valid
  rw [BitVec.toNat_ofNat]
  omega

/-- The host's packet command is answered on a ROM image alone (70_reset_and_hazards.md R275). -/
theorem romValid_of_issuePacket {i : Nat} {p : Phase} {s t : State} (h : issuePacket i p s = .next t) :
    s.rom.valid = true := by
  by_contra broken
  simp [issuePacket, runCode, packetCommand, decodeOfEncode (.pkt _ _) rfl, exec, execPkt, runPkt, broken] at h

/-- The state in Sending(i) with packet `i` built (R210). -/
def enterSending (i : Nat) (s : State) : State :=
  (packetBuilt i s.host.reverseBits s).setHost { s.host with phase := .sending i, packetHeld := true }

theorem startSending_of_lt {i : Nat} {s : State} (valid : s.rom.valid = true) (inRom : i < s.rom.len / 256) :
    startSending i s = .next (enterSending i s) :=
  startSending_ok valid inRom

/-- Entering Sending(i) builds packet `i`, or closes the session after the last index (R210, R211). -/
theorem startSending_cases {i : Nat} {s t : State} (h : startSending i s = .next t) :
    (i < s.rom.len / 256 ∧ s.rom.valid = true ∧ t = enterSending i s) ∨
      (s.rom.len / 256 ≤ i ∧ t = setPhase (.closing .success) s) := by
  obtain inRom | past := Nat.lt_or_ge i (s.rom.len / 256)
  · have valid : s.rom.valid = true := by
      unfold startSending at h
      rw [if_pos inRom] at h
      exact romValid_of_issuePacket h
    rw [startSending_of_lt valid inRom] at h
    cases h
    exact .inl ⟨inRom, valid, rfl⟩
  · rw [startSending_end past] at h
    cases h
    exact .inr ⟨past, rfl⟩

/-! The packet in flight (R214). -/

theorem InFlight.pkt {i : Nat} {s : State} (h : InFlight i s) (pktv : s.pktv = true)
    (held : s.host.packetHeld = true) : s.pkt = Memory.ofBytes (imagePacket s.rom i s.host.reverseBits) := by
  obtain ⟨p, built, pkt⟩ := h pktv held
  obtain ⟨-, -, rfl⟩ := buildPacket_eq_ok built
  exact pkt

theorem inFlight_of_pkt {i : Nat} {s : State} (valid : s.rom.valid = true) (inRom : i < s.rom.len / 256)
    (pkt : s.pkt = Memory.ofBytes (imagePacket s.rom i s.host.reverseBits)) : InFlight i s :=
  fun _ _ => ⟨_, buildPacket_imagePacket _ valid inRom, pkt⟩

/-- `t` is the state after the packet of index `i` of the session went on the line. -/
structure Transmitted (i : Nat) (s t : State) : Prop where
  pkt : t.pkt = Memory.ofBytes (imagePacket s.rom i s.host.reverseBits)
  pktv : t.pktv = true
  flight : InFlight i t
  rom : t.rom = s.rom
  line : t.line = s.line ++ imagePacket s.rom i s.host.reverseBits
  host : t.host = { s.host with phase := .awaitingAck i, packetHeld := true }
  inputs : t.inputs = s.inputs

/-- Whether the host holds packet `i` or issues its command again, a transmission sends packet `i` (R214). -/
theorem transmit_inFlight {i : Nat} {s : State} (inRom : i < s.rom.len / 256) (flight : InFlight i s)
    (again : (s.pktv && s.host.packetHeld) = false → s.rom.valid = true) :
    ∃ t, transmit i s = .next t ∧ Transmitted i s t := by
  by_cases readable : (s.pktv && s.host.packetHeld) = true
  · obtain ⟨pktv, held⟩ := Bool.and_eq_true_iff.1 readable
    have pkt := flight.pkt pktv held
    have command : Memory.read s.pkt 0 = 0x5A#8 := by
      rw [pkt, Memory.read_ofBytes]
      rfl
    have bytes : pktBytes s = imagePacket s.rom i s.host.reverseBits := pktBytes_of_pkt pkt (length_imagePacket ..)
    refine ⟨_, transmit_ok i pktv held command, pkt, pktv, flight, rfl, ?_, ?_, rfl⟩
    · simp [setPhase, bytes]
    · simp [setPhase, ← held]
  · rw [Bool.not_eq_true] at readable
    have valid := again readable
    exact ⟨_, transmit_again readable valid inRom, rfl, rfl, inFlight_of_pkt valid inRom rfl, rfl, rfl, rfl, rfl⟩

/-- A transmission that issues the packet command again answers on a ROM image alone. -/
theorem romValid_of_transmit {i : Nat} {s t : State} (h : transmit i s = .next t)
    (lost : (s.pktv && s.host.packetHeld) = false) : s.rom.valid = true := by
  obtain ⟨pktv, held, -⟩ | ⟨u, issued, -⟩ := transmit_cases h
  · simp [pktv, held] at lost
  · exact romValid_of_issuePacket issued

/-! One step. -/

/-- The state with the transport acquired (R209). -/
def acquireTransport (s : State) : State := s.setHost { s.host with transportOpen := true }

/-- The state with the packet in flight counted as acknowledged (R211, R215). -/
def reportProgress (s : State) : State :=
  s.setHost { s.host with progress := s.host.progress + 1, resends := 0 }

/-- What one input can do to the host, in the state `s` without it. -/
inductive HostMove (s t : State) : Prop where
  /-- Nothing: no input, or an event that the phase does not wait for (log 18). -/
  | same (eq : t = s)
  /-- A code at the port or the line. -/
  | code (c : Code) (runs : runPortCode c s = .next t)
  /-- The reset input. -/
  | reset (eq : t = resetBlock s)
  /-- A read-out of one byte. -/
  | readOut (b : Byte) (eq : t = s.setHost { s.host with readData := some b })
  /-- A LOAD outside a session. -/
  | loaded (idle : s.host.phase.active = false) (rom : Image) (e : Option LoadError)
      (eq : t = (s.setRom rom).setHost { s.host with loadError := e })
  /-- FLASH begins. -/
  | begun (idle : s.host.phase.active = false) (valid : s.rom.valid = true) (rev : Bool) (ps : HostParams)
      (eq : t = s.setHost { s.host with
        phase := .opening, params := ps, reverseBits := rev, resends := 0, progress := 0 })
  /-- The transport was acquired. -/
  | opened (phase : s.host.phase = .opening)
      (runs : startSending 0 (acquireTransport s) = .next t)
  /-- The transport could not be acquired. -/
  | openFailed (phase : s.host.phase = .opening) (eq : t = setPhase (.closed (.failure .transportError)) s)
  /-- A packet was written. -/
  | written (i : Nat) (phase : s.host.phase.packetIndex = some i) (runs : transmit i s = .next t)
  /-- A packet was acknowledged. -/
  | acknowledged (i : Nat) (phase : s.host.phase = .awaitingAck i)
      (runs : startSending (i + 1) (reportProgress s) = .next t)
  /-- A packet was refused or timed out. -/
  | retried (i : Nat) (phase : s.host.phase.packetIndex = some i) (eq : t = retryOrFail i s)
  /-- The session was cancelled or met an I/O failure. -/
  | aborted (c : ErrorClass) (cause : c = .cancelled ∨ s.host.phase ≠ .opening)
      (eq : t = setPhase (s.host.phase.abort c) s)
  /-- The transport was released. -/
  | released (r : SessionResult) (phase : s.host.phase = .closing r)
      (eq : t = s.setHost { s.host with
        phase := .closed r, transportOpen := false,
        releases := s.host.releases + (if s.host.transportOpen then 1 else 0) })

theorem runReplyEvent_hostMove {frame : List Byte} {s t : State} (h : runReplyEvent frame s = .next t) :
    HostMove s t := by
  unfold runReplyEvent runReply at h
  split at h
  · rename_i i phase
    split_ifs at h
    · exact .acknowledged i phase h
    · cases h
      exact .retried i (by simp [phase, Phase.packetIndex]) rfl
    · cases h
      exact .same rfl
  · cases h
    exact .same rfl

theorem runTimeout_hostMove {s t : State} (h : runTimeout s = .next t) : HostMove s t := by
  unfold runTimeout at h
  split at h <;> cases h
  · exact .openFailed ‹_› rfl
  · exact .retried _ (by simp [*, Phase.packetIndex]) rfl
  · exact .retried _ (by simp [*, Phase.packetIndex]) rfl
  · exact .retried _ (by simp [*, Phase.packetIndex]) rfl
  · exact .same rfl

theorem runEvent_hostMove {e : HostEvent} {s t : State} (h : runEvent e s = .next t) : HostMove s t := by
  cases e with
  | opened =>
    simp only [runEvent, runOpened] at h
    split at h
    · exact .opened ‹_› h
    · cases h
      exact .same rfl
  | openFailed =>
    simp only [runEvent, runOpenFailed] at h
    split at h <;> cases h
    · exact .openFailed ‹_› rfl
    · exact .same rfl
  | written =>
    simp only [runEvent, runWritten] at h
    split at h
    · exact .written _ (by simp [*, Phase.packetIndex]) h
    · exact .written _ (by simp [*, Phase.packetIndex]) h
    · cases h
      exact .same rfl
  | reply frame => exact runReplyEvent_hostMove h
  | timeout => exact runTimeout_hostMove h
  | ioError =>
    simp only [runEvent, runIoError] at h
    split at h <;> cases h
    · exact .openFailed ‹_› rfl
    · exact .aborted .transportError (.inr ‹_›) rfl
  | released =>
    simp only [runEvent, runReleased] at h
    split at h <;> cases h
    · exact .released _ ‹_› rfl
    · exact .same rfl
  | cancel =>
    cases h
    exact .aborted .cancelled (.inl rfl) rfl

theorem handleInput_hostMove {x : Input} {s t : State} (h : handleInput x s = .next t) : HostMove s t := by
  cases x with
  | code c => exact .code c h
  | reset =>
    cases h
    exact .reset rfl
  | readOut k =>
    simp only [handleInput, runReadOut] at h
    split at h
    · split at h <;> cases h
      exact .readOut _ rfl
    · cases h
  | load file =>
    simp only [handleInput, runLoad] at h
    split_ifs at h with active
    rw [Bool.not_eq_true] at active
    split at h <;> cases h
    · exact .loaded active _ none rfl
    · exact .loaded active s.rom _ rfl
  | flash rev ps =>
    simp only [handleInput, runFlash] at h
    split_ifs at h with active _ valid
    cases h
    exact .begun (by simpa using active) valid rev ps rfl
  | event e => exact runEvent_hostMove h

/-- Everything a step can do to the host. -/
theorem step_hostMove {s t : State} (h : step s = .next t) : HostMove (s.setInputs s.inputs.tail) t := by
  cases next : s.inputs with
  | nil =>
    simp only [step, nextInput, next] at h
    cases h
    exact .same (by rw [List.tail_nil, ← next]; rfl)
  | cons x rest =>
    rw [step_of_inputs next] at h
    exact handleInput_hostMove h

end Sys2Proof.Machine
end

section
/-!
The invariant of the session (45_host_environment.md R205, R210, R212 to R214), kept by every step, and the growth of
its packet index (R211).
-/

namespace Sys2Proof.Machine

/-- The invariant in the three phases with a packet index. -/
theorem hostInv_iff_of_packetIndex {i : Nat} {s : State} (h : s.host.phase.packetIndex = some i) :
    HostInv s ↔ s.host.resends ≤ s.host.params.maxResends ∧ s.host.transportOpen = true ∧
      i < s.rom.len / 256 ∧ InFlight i s := by
  unfold HostInv
  obtain phase | phase | phase := Phase.packetIndex_eq_some_iff.1 h <;> rw [phase]

/-- Only the fields it names matter to the invariant, and the image and the packet where one is in flight. -/
theorem HostInv.congr {s t : State} (hs : HostInv s) (resends : t.host.resends = s.host.resends)
    (params : t.host.params = s.host.params) (phase : t.host.phase = s.host.phase)
    (transport : t.host.transportOpen = s.host.transportOpen)
    (flight : ∀ i, s.host.phase.packetIndex = some i → i < s.rom.len / 256 → InFlight i s →
      t.rom = s.rom ∧ InFlight i t) : HostInv t := by
  cases index : s.host.phase.packetIndex with
  | some i =>
    obtain ⟨bound, held, inRom, inFlight⟩ := (hostInv_iff_of_packetIndex index).1 hs
    obtain ⟨rom, inFlight'⟩ := flight i index inRom inFlight
    exact (hostInv_iff_of_packetIndex (phase ▸ index)).2
      ⟨by rwa [resends, params], by rwa [transport], by rwa [rom], inFlight'⟩
  | none =>
    unfold HostInv at hs ⊢
    rw [resends, params, phase, transport]
    cases p : s.host.phase <;> simp_all [Phase.packetIndex]

/-- An abort keeps the invariant; a session whose transport is still to be opened is aborted by a cancellation or an
error of the block (R220, R222). -/
theorem HostInv.abort {s t : State} {c : ErrorClass} {b : Bool} (hs : HostInv s)
    (host : t.host = { s.host with packetHeld := b, phase := s.host.phase.abort c })
    (cause : c = .cancelled ∨ c = .argumentError ∨ s.host.phase ≠ .opening) : HostInv t := by
  obtain ⟨bound, phase⟩ := hs
  refine ⟨by rwa [host], ?_⟩
  rw [host]
  cases p : s.host.phase with
  | closing r => cases r <;> simp_all [Phase.abort]
  | _ => simp_all [Phase.abort]

/-- A command leaves in flight what the host notes it to hold (70_reset_and_hazards.md R277). -/
theorem InFlight.notePacket {i : Nat} {j : Instr} {s t : State} (hs : InFlight i s)
    (index : s.host.phase.packetIndex = some i) (inRom : i < s.rom.len / 256) (h : exec j s = .next t) :
    InFlight i (notePacket j t) := by
  obtain ⟨o, rfl, r, rfl⟩ | ⟨b, rfl, r, rfl⟩ | ⟨o, c, rfl, ⟨f, rfl⟩ | ⟨v, rfl⟩⟩ |
    ⟨o, r, rfl, valid, ⟨f, -, rfl⟩ | ⟨p, built, rfl⟩⟩ | ⟨a, p, c, rfl, rfl⟩ := exec_cases h
  · exact hs
  · exact hs
  · exact hs
  · exact hs
  · exact fun pktv => nomatch pktv
  · intro _ held
    obtain ⟨k, index', rfl, rfl⟩ := (ownPacket_iff s.host o r).1 held
    cases index.symm.trans index'
    rw [toNat_packetOffset valid inRom] at built
    exact ⟨p, built, rfl⟩
  · exact hs

theorem InFlight.takeResponse {i : Nat} {s : State} (hs : InFlight i s) : InFlight i (takeResponse s) := by
  obtain e | ⟨f, -, e⟩ := takeResponse_eq s <;> rw [e] <;> exact hs

/-- A code during a session keeps the promise about the packet in flight. -/
theorem InFlight.runPortCode {i : Nat} {c : Code} {s t : State} (hs : InFlight i s)
    (index : s.host.phase.packetIndex = some i) (inRom : i < s.rom.len / 256)
    (h : runPortCode c s = .next t) : InFlight i t := by
  rw [Machine.runPortCode, if_pos (Phase.active_of_packetIndex index)] at h
  obtain ⟨u, runs, ⟨j, decoded, -, rfl⟩ | ⟨⟨e, undecoded⟩, rfl⟩⟩ := runSessionCode_next h
  · simp only [runCode, decoded] at runs
    exact (hs.notePacket index inRom runs).takeResponse
  · simp only [runCode, undecoded] at runs
    cases c with
    | word w =>
      cases runs
      exact InFlight.takeResponse (s := raise .illegalCommand s) hs
    | frame b => cases runs

theorem HostInv.runPortCode {c : Code} {s t : State} (hs : HostInv s) (h : runPortCode c s = .next t) :
    HostInv t := by
  obtain ⟨rom, -, b, host | host⟩ := runPortCode_keeps h
  · exact hs.congr (by rw [host]) (by rw [host]) (by rw [host]) (by rw [host])
      fun i index inRom flight => ⟨rom, flight.runPortCode index inRom h⟩
  · exact hs.abort host (.inr (.inl rfl))

/-- Entering Sending(i) with the transport held establishes the invariant (R210, R211). -/
theorem hostInv_of_startSending {i : Nat} {s t : State} (bound : s.host.resends ≤ s.host.params.maxResends)
    (held : s.host.transportOpen = true) (h : startSending i s = .next t) : HostInv t := by
  obtain ⟨inRom, valid, rfl⟩ | ⟨-, rfl⟩ := startSending_cases h
  · exact ⟨bound, held, inRom, inFlight_of_pkt valid inRom rfl⟩
  · exact ⟨bound, .inl held⟩

section
variable {i : Nat} {s t : State}

theorem HostInv.transmit (hs : HostInv s) (index : s.host.phase.packetIndex = some i)
    (h : transmit i s = .next t) : HostInv t := by
  obtain ⟨bound, held, inRom, flight⟩ := (hostInv_iff_of_packetIndex index).1 hs
  obtain ⟨u, sent, tr⟩ := transmit_inFlight inRom flight (romValid_of_transmit h)
  cases sent.symm.trans h
  exact (hostInv_iff_of_packetIndex (i := i) (by rw [tr.host]; rfl)).2
    ⟨by rwa [tr.host], by rwa [tr.host], by rwa [tr.rom], tr.flight⟩

theorem HostInv.retryOrFail (hs : HostInv s) (index : s.host.phase.packetIndex = some i) :
    HostInv (retryOrFail i s) := by
  obtain ⟨bound, held, inRom, flight⟩ := (hostInv_iff_of_packetIndex index).1 hs
  obtain left | spent := Nat.lt_or_ge s.host.resends s.host.params.maxResends
  · rw [retryOrFail_of_lt i left]
    exact ⟨left, held, inRom, flight⟩
  · rw [retryOrFail_of_le i spent]
    exact ⟨bound, .inl held⟩

end

/-- Whatever a step can do to the host keeps the invariant of the session. -/
theorem HostMove.keeps_hostInv {s t : State} (h : HostMove s t) (hs : HostInv s) : HostInv t := by
  cases h with
  | same eq => rwa [eq]
  | code c runs => exact hs.runPortCode runs
  | reset eq =>
    subst eq
    exact hs.congr rfl rfl rfl rfl fun i _ _ _ => ⟨rfl, fun pktv => nomatch pktv⟩
  | readOut b eq =>
    subst eq
    exact hs
  | loaded idle rom e eq =>
    subst eq
    exact hs.congr rfl rfl rfl rfl fun i index _ _ => absurd (Phase.active_of_packetIndex index) (by simp [idle])
  | begun idle _ rev ps eq =>
    subst eq
    refine ⟨Nat.zero_le _, ?_⟩
    obtain ⟨-, phase⟩ := hs
    cases p : s.host.phase <;> simp_all [Phase.active]
  | opened phase runs => exact hostInv_of_startSending (s := acquireTransport s) hs.1 rfl runs
  | openFailed phase eq =>
    subst eq
    obtain ⟨bound, transport⟩ := hs
    rw [phase] at transport
    exact ⟨bound, transport⟩
  | written i index runs => exact hs.transmit index runs
  | acknowledged i phase runs =>
    obtain ⟨-, transport, -⟩ := (hostInv_iff_of_packetIndex (i := i) (by rw [phase]; rfl)).1 hs
    exact hostInv_of_startSending (s := reportProgress s) (Nat.zero_le _) transport runs
  | retried i index eq => exact eq ▸ hs.retryOrFail index
  | aborted c cause eq => exact hs.abort (b := s.host.packetHeld) (by rw [eq]; rfl) (cause.imp_right .inr)
  | released r phase eq =>
    subst eq
    exact ⟨hs.1, rfl⟩

/-- Settles O44: a step can do to the host only what `HostMove` lists, and each of its moves keeps the invariant. -/
theorem stepKeepsHostInv : Obligations.StepKeepsHostInv :=
  fun s _ hs h => (step_hostMove h).keeps_hostInv (s := s.setInputs s.inputs.tail) hs

end Sys2Proof.Machine
end

section
/-!
LOAD (45_host_environment.md R200 to R203), and the transitions of FLASH one event at a time (R209 to R222).
-/

namespace Sys2Proof.Machine

/-! LOAD: one outcome per check of R201; `loadImage_ok` says what a good file gives. -/

theorem loadImage_of_tooLarge {file : List Byte} (h : 1048576 < file.length) :
    loadImage file = .error .tooLarge :=
  if_pos h

theorem loadImage_of_misaligned {file : List Byte} (small : file.length ≤ 1048576) (h : file.length % 256 ≠ 0) :
    loadImage file = .error .misalignedImage := by
  unfold loadImage
  exact (if_neg (Nat.not_lt.2 small)).trans (if_pos h)

theorem loadImage_of_aligned {file : List Byte} (small : file.length ≤ 1048576) (h : file.length % 256 = 0) :
    loadImage file = .ok (Image.ofBytes file) := by
  unfold loadImage
  exact (if_neg (Nat.not_lt.2 small)).trans (if_neg (not_not_intro h))

theorem runLoad_of_active {s : State} (active : s.host.phase.active = true) (file : List Byte) :
    runLoad file s = .refused .sessionActive :=
  if_pos active

theorem runLoad_of_ok {file : List Byte} {im : Image} {s : State} (idle : s.host.phase.active = false)
    (h : loadImage file = .ok im) :
    runLoad file s = .next ((s.setRom im).setHost { s.host with loadError := none }) := by
  simp [runLoad, idle, h]

theorem runLoad_of_error {file : List Byte} {e : LoadError} {s : State} (idle : s.host.phase.active = false)
    (h : loadImage file = .error e) : runLoad file s = .next (s.setHost { s.host with loadError := some e }) := by
  simp [runLoad, idle, h]

/-- Settles O48: the image of a good file is the memory made of its bytes. -/
theorem loadKeepsTheBytes : Obligations.LoadKeepsTheBytes := by
  intro file im h
  obtain ⟨rfl, -⟩ := loadImage_ok h
  refine ⟨rfl, Image.wf_ofBytes file, fun a ha => ?_⟩
  have read : Memory.read (Image.ofBytes file).mem a = file.getD a Memory.blank := Memory.read_ofBytes file a
  rw [read, List.getD_eq_getElem _ _ ha, List.getElem?_eq_getElem ha]

/-- Settles O50: the session first, then one case per check. -/
theorem loadStep : Obligations.LoadStep := by
  intro s file rest next
  have load : step s = runLoad file (s.setInputs rest) := step_of_inputs next
  refine ⟨fun active => load.trans (runLoad_of_active (s := s.setInputs rest) active file), loadImage_of_tooLarge,
    loadImage_of_misaligned, fun idle small aligned => ?_⟩
  have image := loadImage_of_aligned small aligned
  exact ⟨_, image, (loadImage_ok image).2, load.trans (runLoad_of_ok (s := s.setInputs rest) idle image)⟩

/-- A FLASH that is answered had a ROM image (R203). -/
theorem romValid_of_runFlash {rev : Bool} {ps : HostParams} {s t : State} (h : runFlash rev ps s = .next t) :
    s.rom.valid = true := by
  unfold runFlash at h
  split_ifs at h with _ _ valid
  exact valid

/-- Settles O49: a bad file leaves its error alone, and FLASH checks the image. -/
theorem validationErrorsHaveNoSideEffects : Obligations.ValidationErrorsHaveNoSideEffects := by
  intro s rest
  refine ⟨fun file e next idle failed => ⟨rfl, ?_⟩, fun rev ps t next h => ?_⟩
  · exact (step_of_inputs next).trans (runLoad_of_error (s := s.setInputs rest) idle failed)
  · rw [step_of_inputs next] at h
    exact (Image.valid_iff s.rom).1 (romValid_of_runFlash (s := s.setInputs rest) h)

/-! The outcome of each event in the phase that waits for it (R209 to R213). -/

section
variable {s : State}

theorem runFlash_of_idle (rev : Bool) {ps : HostParams} (phase : s.host.phase = .idle) (limit : 0 < ps.retryLimit)
    (valid : s.rom.valid = true) : runFlash rev ps s = .next (s.setHost { s.host with
      phase := .opening, params := ps, reverseBits := rev, resends := 0, progress := 0 }) := by
  have limit' : ps.retryLimit ≠ 0 := limit.ne'
  simp [runFlash, phase, Phase.active, limit', valid]

theorem runOpened_of_opening (phase : s.host.phase = .opening) :
    runOpened s = startSending 0 (acquireTransport s) := by
  simp [runOpened, phase, acquireTransport]

theorem runOpenFailed_of_opening (phase : s.host.phase = .opening) :
    runOpenFailed s = .next (setPhase (.closed (.failure .transportError)) s) := by
  simp [runOpenFailed, phase]

theorem runWritten_of_unsent {i : Nat} (phase : s.host.phase = .retrying i ∨ s.host.phase = .sending i) :
    runWritten s = transmit i s := by
  obtain phase | phase := phase <;> simp [runWritten, phase]

theorem runReplyEvent_of_ack {i : Nat} {frame : List Byte} (phase : s.host.phase = .awaitingAck i)
    (ack : frame ∈ s.host.params.ackFrames) :
    runReplyEvent frame s = startSending (i + 1) (reportProgress s) := by
  simp [runReplyEvent, phase, runReply, ack, acknowledged, reportProgress]

theorem runReplyEvent_of_nak {i : Nat} {frame : List Byte} (phase : s.host.phase = .awaitingAck i)
    (notAck : frame ∉ s.host.params.ackFrames) (nak : frame ∈ s.host.params.nakFrames) :
    runReplyEvent frame s = .next (retryOrFail i s) := by
  simp [runReplyEvent, phase, runReply, notAck, nak]

theorem runTimeout_of_awaitingAck {i : Nat} (phase : s.host.phase = .awaitingAck i) :
    runTimeout s = .next (retryOrFail i s) := by
  simp [runTimeout, phase]

theorem runIoError_of_opening (phase : s.host.phase = .opening) :
    runIoError s = .next (setPhase (.closed (.failure .transportError)) s) := by
  simp [runIoError, phase]

theorem runIoError_of_ne_opening (phase : s.host.phase ≠ .opening) :
    runIoError s = .next (setPhase (s.host.phase.abort .transportError) s) := by
  unfold runIoError
  split
  · contradiction
  · rfl

theorem runReleased_of_closing {r : SessionResult} (phase : s.host.phase = .closing r) :
    runReleased s = .next (s.setHost { s.host with
      phase := .closed r, transportOpen := false,
      releases := s.host.releases + (if s.host.transportOpen then 1 else 0) }) := by
  simp [runReleased, phase]

/-- Closed is terminal (R209, log 18). -/
theorem runEvent_of_closed {r : SessionResult} (phase : s.host.phase = .closed r) (e : HostEvent) :
    runEvent e s = .next s := by
  have same : setPhase (.closed r) s = s := setPhase_self phase
  cases e with
  | opened => simp [runEvent, runOpened, phase]
  | openFailed => simp [runEvent, runOpenFailed, phase]
  | written => simp [runEvent, runWritten, phase]
  | reply frame => simp [runEvent, runReplyEvent, phase]
  | timeout => simp [runEvent, runTimeout, phase]
  | ioError => simp [runEvent, runIoError, phase, Phase.abort, same]
  | released => simp [runEvent, runReleased, phase]
  | cancel => simp [runEvent, runCancel, phase, Phase.abort, same]

end

/-- A step on an event of the session. -/
theorem step_of_event {e : HostEvent} {s : State} {rest : List Input} (next : s.inputs = .event e :: rest) :
    step s = runEvent e (s.setInputs rest) :=
  step_of_inputs next

/-- Settles O52: FLASH from Idle, the failed open, and the terminal phase. -/
theorem openingTransitions : Obligations.OpeningTransitions := by
  intro s rest
  refine ⟨fun rev ps next phase limit valid => ?_, fun next phase => ?_, fun e r next phase => ?_⟩
  · exact ⟨_, (step_of_inputs next).trans (runFlash_of_idle (s := s.setInputs rest) rev phase limit valid),
      rfl, rfl, rfl, rfl, rfl⟩
  · exact ⟨_, (step_of_event next).trans (runOpenFailed_of_opening (s := s.setInputs rest) phase), rfl, rfl⟩
  · exact (step_of_event next).trans (runEvent_of_closed (s := s.setInputs rest) phase e)

/-! Packets that are built (R210, R211). -/

@[simp] theorem packetBuilt_off (i : Nat) (rev : Bool) (s : State) :
    (packetBuilt i rev s).off = BitVec.ofNat 24 (256 * i) :=
  low24_zext _

@[simp] theorem enterSending_off (i : Nat) (s : State) : (enterSending i s).off = BitVec.ofNat 24 (256 * i) :=
  packetBuilt_off i s.host.reverseBits s

/-- Settles O51: the packet command of an index of the image builds its packet. -/
theorem flashPacketsNeverFail : Obligations.FlashPacketsNeverFail := fun s i rev valid inRom =>
  ⟨packetBuilt i rev s, runCode_packetCommand rev valid inRom, rfl, rfl,
    by rw [packetBuilt_off, toNat_packetOffset valid inRom], rfl⟩

/-- Settles O53: entering Sending(0), on an image with a packet 0 and on an empty one. -/
theorem sendingBegins : Obligations.SendingBegins := by
  intro s rest next phase
  have opened := (step_of_event next).trans (runOpened_of_opening (s := s.setInputs rest) phase)
  refine ⟨fun valid nonempty => ?_, fun empty => ?_⟩
  · obtain ⟨aligned, -⟩ := (Image.valid_iff s.rom).1 valid
    have inRom : 0 < s.rom.len / 256 := by omega
    rw [startSending_of_lt (s := acquireTransport (s.setInputs rest)) valid inRom] at opened
    exact ⟨_, opened, rfl, rfl, rfl, enterSending_off 0 _, rfl⟩
  · have past : s.rom.len / 256 ≤ 0 := by simp [empty]
    rw [startSending_end (s := acquireTransport (s.setInputs rest)) past] at opened
    exact ⟨_, opened, rfl, rfl, rfl⟩

/-- Settles O54: entering Sending(i + 1), with a packet left and with none. -/
theorem acknowledgmentAdvances : Obligations.AcknowledgmentAdvances := by
  intro s rest i frame next phase ack valid
  have advance := (step_of_event next).trans (runReplyEvent_of_ack (s := s.setInputs rest) phase ack)
  obtain inRom | past := Nat.lt_or_ge (i + 1) (s.rom.len / 256)
  · rw [startSending_of_lt (s := reportProgress (s.setInputs rest)) valid inRom] at advance
    have off : (BitVec.ofNat 24 (256 * (i + 1))).toNat = 256 * (i + 1) := toNat_packetOffset valid inRom
    exact ⟨_, advance, rfl, rfl, fun _ => ⟨rfl, rfl, by rw [enterSending_off, off]⟩,
      fun past => absurd inRom (Nat.not_lt.2 past)⟩
  · rw [startSending_end (s := reportProgress (s.setInputs rest)) past] at advance
    exact ⟨_, advance, rfl, rfl, fun inRom => absurd inRom (Nat.not_lt.2 past), fun _ => rfl⟩

/-! Packets that go on the line, once or again (R212, R214). -/

theorem pktBytes_eq_map (s : State) : pktBytes s = (List.range 261).map fun k => Memory.read s.pkt k := by
  simp [pktBytes, Memory.slice_eq_map, Config.pktLen]

/-- A failed transmission leads to Retrying or to `ProtocolError` (R212). -/
theorem retryOrFail_host (i : Nat) (s : State) :
    (s.host.resends < s.host.params.maxResends →
      (retryOrFail i s).host.phase = .retrying i ∧ (retryOrFail i s).host.resends = s.host.resends + 1) ∧
    (s.host.params.maxResends ≤ s.host.resends →
      (retryOrFail i s).host.phase = .closing (.failure .protocolError)) := by
  constructor <;> intro h
  · rw [retryOrFail_of_lt i h]
    exact ⟨rfl, rfl⟩
  · rw [retryOrFail_of_le i h]
    rfl

/-- Settles O55: the unacknowledged packet by `retryOrFail`, and the write by `transmit`, which sends the buffer while
the host holds its packet and under the invariant always packet `i`. -/
theorem retryResendsTheSamePacket : Obligations.RetryResendsTheSamePacket := by
  intro s rest i
  refine ⟨fun phase unacknowledged => ?_, fun phase next => ?_⟩
  · have retry : step s = .next (retryOrFail i (s.setInputs rest)) := by
      obtain next | ⟨frame, next, notAck, nak⟩ := unacknowledged
      · exact (step_of_event next).trans (runTimeout_of_awaitingAck (s := s.setInputs rest) phase)
      · exact (step_of_event next).trans (runReplyEvent_of_nak (s := s.setInputs rest) phase notAck nak)
    obtain ⟨pkt, pktv, -, -, -, -, -, line, -⟩ := retryOrFail_block i (s.setInputs rest)
    exact ⟨_, retry, pkt, pktv, line, retryOrFail_host i (s.setInputs rest)⟩
  · have write := (step_of_event next).trans (runWritten_of_unsent (s := s.setInputs rest) phase)
    refine ⟨fun pktv held command => ?_, fun inv valid => ?_⟩
    · rw [transmit_ok (s := s.setInputs rest) i pktv held command] at write
      exact ⟨_, write, rfl, rfl, pktv, congrArg (s.line ++ ·) (pktBytes_eq_map s)⟩
    · have index : s.host.phase.packetIndex = some i :=
        Phase.packetIndex_eq_some_iff.2 (phase.elim (.inr ∘ .inr) .inl)
      obtain ⟨-, -, inRom, flight⟩ := (hostInv_iff_of_packetIndex index).1 inv
      obtain ⟨t, sent, tr⟩ := transmit_inFlight (s := s.setInputs rest) inRom flight fun _ => valid
      exact ⟨t, _, buildPacket_imagePacket _ valid inRom, write.trans sent, by rw [tr.host], tr.line⟩

/-! The index of the packet in flight (R211). -/

/-- A failed transmission reports no progress, and leads on with the same packet if at all. -/
theorem retryOrFail_packetIndex {i j : Nat} {s : State} (h : (retryOrFail i s).host.phase.packetIndex = some j) :
    j = i ∧ (retryOrFail i s).host.progress = s.host.progress := by
  obtain left | spent := Nat.lt_or_ge s.host.resends s.host.params.maxResends
  · rw [retryOrFail_of_lt i left] at h ⊢
    exact ⟨(Option.some.inj h).symm, rfl⟩
  · rw [retryOrFail_of_le i spent] at h
    cases h

theorem HostMove.packetIndex {s t : State} {i j : Nat} (h : HostMove s t) (hi : s.host.phase.packetIndex = some i)
    (hj : t.host.phase.packetIndex = some j) :
    (j = i ∧ t.host.progress = s.host.progress) ∨
      (j = i + 1 ∧ t.host.progress = s.host.progress + 1 ∧ s.host.phase = .awaitingAck i) := by
  have active := Phase.active_of_packetIndex hi
  have kept (phase : t.host.phase = s.host.phase) : j = i :=
    Option.some.inj (hj.symm.trans ((congrArg _ phase).trans hi))
  cases h with
  | same eq => exact .inl ⟨kept (by rw [eq]), by rw [eq]⟩
  | code c runs =>
    obtain ⟨-, -, b, host | host⟩ := runPortCode_keeps runs
    · exact .inl ⟨kept (by rw [host]), by rw [host]⟩
    · simp [host] at hj
  | reset eq => exact .inl ⟨kept (by rw [eq]; rfl), by rw [eq]; rfl⟩
  | readOut b eq => exact .inl ⟨kept (by rw [eq]; rfl), by rw [eq]; rfl⟩
  | loaded idle => simp [active] at idle
  | begun idle => simp [active] at idle
  | opened phase => simp [phase, Phase.packetIndex] at hi
  | openFailed phase => simp [phase, Phase.packetIndex] at hi
  | written k index runs =>
    cases hi.symm.trans index
    obtain ⟨-, p, b, host, phase⟩ := transmit_host runs
    obtain rfl | rfl | rfl := phase
    · simp only [host, Phase.packetIndex, Option.some.injEq] at hj
      exact .inl ⟨hj.symm, by rw [host]⟩
    · simp [host, Phase.packetIndex] at hj
    · exact .inl ⟨kept (by rw [host]), by rw [host]⟩
  | acknowledged k phase runs =>
    simp only [phase, Phase.packetIndex, Option.some.injEq] at hi
    subst hi
    obtain ⟨-, -, rfl⟩ | ⟨-, rfl⟩ := startSending_cases runs
    · exact .inr ⟨(Option.some.inj hj).symm, rfl, phase⟩
    · cases hj
  | retried k index eq =>
    cases hi.symm.trans index
    subst eq
    exact .inl (retryOrFail_packetIndex hj)
  | aborted c cause eq => simp [eq, setPhase] at hj
  | released r phase => simp [phase, Phase.packetIndex] at hi

/-- Settles O57: of the moves of `HostMove` only an acknowledgment changes the index. -/
theorem packetIndexGrowsByOnePerAck : Obligations.PacketIndexGrowsByOnePerAck :=
  fun _ _ _ _ h hi hj => (step_hostMove h).packetIndex hi hj

/-! The end of a session: release, cancellation, I/O failure, and an error of the block (R213, R220 to R222). -/

/-- A cancellation or an I/O failure that meets a closing session leaves it there (log 25). -/
theorem Phase.abort_closing (c : ErrorClass) (r : SessionResult) :
    (Phase.closing r).abort c = .closing (if r = .success then .failure c else r) := by
  cases r <;> rfl

/-- Before it closes a session is aborted as the class of the error (R220, R222). -/
theorem Phase.abort_of_packetIndex {p : Phase} {i : Nat} (h : p.packetIndex = some i) (c : ErrorClass) :
    p.abort c = .closing (.failure c) := by
  obtain rfl | rfl | rfl := packetIndex_eq_some_iff.1 h <;> rfl

theorem Phase.ne_opening_of_packetIndex {p : Phase} {i : Nat} (h : p.packetIndex = some i) : p ≠ .opening := by
  rintro rfl
  cases h

/-- Settles O56: one case per event and phase. -/
theorem sessionsCloseTheTransport : Obligations.SessionsCloseTheTransport := by
  intro s rest
  refine ⟨fun r next phase => ?_, fun next phase => ?_, fun next phase => ?_, fun next phase => ?_,
    fun r e c next phase ends => ?_⟩
  · exact ⟨_, (step_of_event next).trans (runReleased_of_closing (s := s.setInputs rest) phase), rfl, rfl, rfl⟩
  · have abort : s.host.phase.abort .cancelled = .closing (.failure .cancelled) := by
      obtain phase | ⟨i, index⟩ := phase
      · rw [phase]
        rfl
      · exact Phase.abort_of_packetIndex (Phase.packetIndex_eq_some_iff.2 index) _
    exact ⟨_, step_of_event next, abort, rfl, rfl, rfl, rfl⟩
  · obtain ⟨i, index⟩ := phase
    have index' := Phase.packetIndex_eq_some_iff.2 index
    exact ⟨_, (step_of_event next).trans
        (runIoError_of_ne_opening (s := s.setInputs rest) (Phase.ne_opening_of_packetIndex index')),
      Phase.abort_of_packetIndex index' _, rfl, rfl, rfl, rfl⟩
  · exact ⟨_, (step_of_event next).trans (runIoError_of_opening (s := s.setInputs rest) phase),
      rfl, rfl, rfl, rfl, rfl⟩
  · have aborted : step s = .next (setPhase (s.host.phase.abort c) (s.setInputs rest)) := by
      obtain ⟨rfl, rfl⟩ | ⟨rfl, rfl⟩ := ends
      · exact step_of_event next
      · exact (step_of_event next).trans (runIoError_of_ne_opening (s := s.setInputs rest) (by simp [phase]))
    rw [aborted, phase, Phase.abort_closing]
    rfl

/-- A command word sends nothing (20_memory.md R64). -/
theorem runCode_word_line {w : CommandWord} {s t : State} (h : runCode (.word w) s = .next t) : t.line = s.line := by
  obtain ⟨i, decoded, runs⟩ | ⟨-, runs⟩ := runCode_word w s <;> rw [runs] at h
  · obtain ⟨-, -, -, line, -⟩ := onlyListedOperationsWrite i s t h
    exact line fun a p c packet => decodeWord_ne_packet w a p c (packet ▸ decoded)
  · cases h
    rfl

/-- A command word during a session: it runs, the host notes what it holds, which a PKT alone can change, and takes the
response (R222, R225). -/
theorem runPortCode_word {w : CommandWord} {s t : State} (active : s.host.phase.active = true)
    (h : runPortCode (.word w) s = .next t) : ∃ u b, runCode (.word w) s = .next u ∧
      t = takeResponse (u.setHost { u.host with packetHeld := b }) ∧
      (b ≠ u.host.packetHeld → ∃ o r, decodeWord w = .ok (.pkt o r)) := by
  rw [runPortCode, if_pos active] at h
  obtain ⟨u, runs, ⟨i, decoded, -, ht⟩ | ⟨-, ht⟩⟩ := runSessionCode_next h
  · by_cases other : ∀ o r, i ≠ .pkt o r
    · exact ⟨u, u.host.packetHeld, runs, notePacket_other other u ▸ ht, fun changed => absurd rfl changed⟩
    · push Not at other
      obtain ⟨o, r, rfl⟩ := other
      exact ⟨u, ownPacket u.host o r, runs, ht, fun _ => ⟨o, r, decoded⟩⟩
  · exact ⟨u, u.host.packetHeld, runs, ht, fun changed => absurd rfl changed⟩

theorem takeResponse_rsp (s : State) : (takeResponse s).rsp = s.rsp := by
  obtain e | ⟨f, -, e⟩ := takeResponse_eq s <;> rw [e]
  rfl

/-- Settles O60: the host takes the error as an abort of its session. -/
theorem commandErrorsAbortTheSession : Obligations.CommandErrorsAbortTheSession := by
  intro s t w rest f next active h failed
  rw [step_of_inputs next] at h
  obtain ⟨u, b, runs, rfl, changed⟩ := runPortCode_word (s := s.setInputs rest) active h
  obtain ⟨-, host, -⟩ := runCode_keeps runs
  have line : u.line = s.line := runCode_word_line (s := s.setInputs rest) runs
  rw [takeResponse_rsp] at failed
  rw [takeResponse_of_error failed, State.setHost_host, host]
  obtain ⟨c, abort, first⟩ := Phase.abort_of_active active f.errorClass
  rw [host] at changed
  exact ⟨c, b, by simp [setPhase, abort], line, changed, first⟩

end Sys2Proof.Machine
end

section
/-!
Whole sessions (45_host_environment.md R210 to R213, R224): a run over a schedule of events, one packet at a time.
-/

namespace Sys2Proof.Machine

/-- One event of the session, then the rest of the run. -/
theorem run_of_event {e : HostEvent} {s t : State} {rest : List Input} {k : Nat}
    (next : s.inputs = .event e :: rest) (h : runEvent e (s.setInputs rest) = .next t) :
    Host.Core.run Sys2Proof.core (k + 1) s = Host.Core.run Sys2Proof.core k t :=
  run_core_succ ((step_of_event next).trans h)

theorem run_of_written {i k : Nat} {s t : State} {rest : List Input}
    (phase : s.host.phase = .retrying i ∨ s.host.phase = .sending i) (next : s.inputs = .event .written :: rest)
    (h : transmit i (s.setInputs rest) = .next t) :
    Host.Core.run Sys2Proof.core (k + 1) s = Host.Core.run Sys2Proof.core k t :=
  run_of_event next ((runWritten_of_unsent (s := s.setInputs rest) phase).trans h)

/-- `t` is `s` after the release of the transport that it held. -/
structure Released (r : SessionResult) (rest : List Input) (s t : State) : Prop where
  phase : t.host.phase = .closed r
  transport : t.host.transportOpen = false
  releases : t.host.releases = s.host.releases + 1
  progress : t.host.progress = s.host.progress
  line : t.line = s.line
  inputs : t.inputs = rest

/-- The release ends a session that holds the transport (R213). -/
theorem run_released {r : SessionResult} {s : State} {rest : List Input} (phase : s.host.phase = .closing r)
    (transport : s.host.transportOpen = true) (next : s.inputs = .event .released :: rest) :
    ∃ t, Host.Core.run Sys2Proof.core 1 s = .next t ∧ Released r rest s t := by
  refine ⟨_, run_of_event next (runReleased_of_closing (s := s.setInputs rest) phase), rfl, rfl, ?_, rfl, rfl, rfl⟩
  simp [transport]

/-! A transport that always answers with a negative acknowledgment (R224). -/

/-- `n` refused transmissions that are followed by another, one that is not, and the release. -/
def nakInputs (n : Nat) (nak : List Byte) (rest : List Input) : List Input :=
  (List.replicate n [Input.event (.reply nak), Input.event .written]).flatten ++
    [Input.event (.reply nak), Input.event .released] ++ rest

/-- Packet `i` awaits its acknowledgment with `n` resends left, and only negative ones come. -/
structure NakSchedule (i n : Nat) (nak : List Byte) (rest : List Input) (s : State) : Prop where
  phase : s.host.phase = .awaitingAck i
  left : s.host.resends + n = s.host.params.maxResends
  transport : s.host.transportOpen = true
  pktv : s.pktv = true
  held : s.host.packetHeld = true
  command : Memory.read s.pkt 0 = 0x5A#8
  notAck : nak ∉ s.host.params.ackFrames
  isNak : nak ∈ s.host.params.nakFrames
  inputs : s.inputs = nakInputs n nak rest

section
variable {i n : Nat} {nak : List Byte} {rest : List Input} {s : State}

/-- While resends are left the packet goes again, and the next answer is awaited. -/
theorem NakSchedule.resend (h : NakSchedule i (n + 1) nak rest s) (k : Nat) :
    ∃ t, Host.Core.run Sys2Proof.core (k + 2) s = Host.Core.run Sys2Proof.core k t ∧
      NakSchedule i n nak rest t ∧ t.host.releases = s.host.releases := by
  have next : s.inputs = .event (.reply nak) :: .event .written :: nakInputs n nak rest := h.inputs
  have left : s.host.resends < s.host.params.maxResends := by
    have := h.left
    omega
  have refused := (runReplyEvent_of_nak (s := s.setInputs (.event .written :: nakInputs n nak rest)) h.phase
    h.notAck h.isNak).trans (congrArg _ (retryOrFail_of_lt i left))
  exact ⟨_, (run_of_event next refused).trans
      (run_of_written (.inl rfl) rfl (transmit_ok i h.pktv h.held h.command)),
    ⟨rfl, (Nat.add_right_comm ..).trans h.left, h.transport, h.pktv, h.held, h.command, h.notAck, h.isNak, rfl⟩, rfl⟩

/-- With no resend left the session fails, and the transport is released. -/
theorem NakSchedule.fail (h : NakSchedule i 0 nak rest s) : ∃ t, Host.Core.run Sys2Proof.core 2 s = .next t ∧
    t.host.phase = .closed (.failure .protocolError) ∧ t.host.transportOpen = false ∧
    t.host.releases = s.host.releases + 1 ∧ t.inputs = rest := by
  have next : s.inputs = .event (.reply nak) :: .event .released :: rest := h.inputs
  have refused := (runReplyEvent_of_nak (s := s.setInputs (.event .released :: rest)) h.phase h.notAck
    h.isNak).trans (congrArg _ (retryOrFail_of_le i h.left.ge))
  obtain ⟨t, run, released⟩ := run_released
    (s := setPhase (.closing (.failure .protocolError)) (s.setInputs (.event .released :: rest))) rfl h.transport rfl
  exact ⟨t, (run_of_event next refused).trans run, released.phase, released.transport, released.releases,
    released.inputs⟩

end

theorem NakSchedule.run {i : Nat} {nak : List Byte} {rest : List Input} (n : Nat) :
    ∀ {s : State}, NakSchedule i n nak rest s → ∃ t, Host.Core.run Sys2Proof.core (2 * n + 2) s = .next t ∧
      t.host.phase = .closed (.failure .protocolError) ∧ t.host.transportOpen = false ∧
      t.host.releases = s.host.releases + 1 ∧ t.inputs = rest := by
  induction n with
  | zero => exact NakSchedule.fail
  | succ n ih =>
    intro s h
    obtain ⟨u, steps, hu, releases⟩ := h.resend (2 * n + 2)
    obtain ⟨t, run, ended⟩ := ih hu
    exact ⟨t, steps.trans run, releases ▸ ended⟩

/-- Settles O58, by induction on the resends that are left. -/
theorem nakForeverEndsInProtocolError : Obligations.NakForeverEndsInProtocolError :=
  fun s _ _ _ phase unsent transport pktv held command notAck isNak inputs =>
    NakSchedule.run s.host.params.maxResends
      ⟨phase, by rw [unsent, Nat.zero_add], transport, pktv, held, command, notAck, isNak, inputs⟩

/-! A transport that acknowledges every packet (R210, R211, R213). -/

/-- `n` packets that are written and acknowledged, and the release. -/
def ackInputs (n : Nat) (ack : List Byte) (rest : List Input) : List Input :=
  (List.replicate n [Input.event .written, Input.event (.reply ack)]).flatten ++ [Input.event .released] ++ rest

/-- With the transport held, `n` packets from index `i` on are still to be built, and each is written and
acknowledged. -/
structure AckSchedule (i n : Nat) (ack : List Byte) (rest : List Input) (s : State) : Prop where
  valid : s.rom.valid = true
  count : i + n = s.rom.len / 256
  transport : s.host.transportOpen = true
  isAck : ack ∈ s.host.params.ackFrames
  inputs : s.inputs = ackInputs n ack rest

/-- In `t` packet `i` of the session of `s` has gone on the line and was reported. -/
structure Advanced (i : Nat) (s t : State) : Prop where
  rom : t.rom = s.rom
  reverseBits : t.host.reverseBits = s.host.reverseBits
  releases : t.host.releases = s.host.releases
  progress : t.host.progress = s.host.progress + 1
  line : t.line = s.line ++ imagePacket s.rom i s.host.reverseBits

/-- In `t` the session of `s` has ended with the `n` packets from index `i` on sent and reported. -/
structure Completed (i n : Nat) (rest : List Input) (s t : State) : Prop where
  phase : t.host.phase = .closed .success
  transport : t.host.transportOpen = false
  releases : t.host.releases = s.host.releases + 1
  progress : t.host.progress = s.host.progress + n
  inputs : t.inputs = rest
  line : t.line = s.line ++ ((List.range' i n).map fun k => imagePacket s.rom k s.host.reverseBits).flatten

section
variable {i n : Nat} {ack : List Byte} {rest : List Input} {s : State}

/-- Packet `i` is built, written and acknowledged, after which the next one is to be built. -/
theorem AckSchedule.advance (h : AckSchedule i (n + 1) ack rest s) :
    ∃ u w, startSending i s = .next u ∧ AckSchedule (i + 1) n ack rest w ∧ Advanced i s w ∧
      ∀ k v, startSending (i + 1) w = .next v →
        Host.Core.run Sys2Proof.core (k + 2) u = Host.Core.run Sys2Proof.core k v := by
  obtain ⟨valid, count, transport, isAck, inputs⟩ := h
  have inRom : i < s.rom.len / 256 := by omega
  obtain ⟨w, sent, tr⟩ := transmit_inFlight (i := i)
    (s := (enterSending i s).setInputs (.event (.reply ack) :: ackInputs n ack rest))
    inRom (inFlight_of_pkt valid inRom rfl) fun _ => valid
  have rom : w.rom = s.rom := tr.rom
  have host : w.host = { s.host with phase := .awaitingAck i, packetHeld := true } := tr.host
  have params : s.host.params = w.host.params := by rw [host]
  have reverseBits : w.host.reverseBits = s.host.reverseBits := by rw [host]
  have releases : w.host.releases = s.host.releases := by rw [host]
  have progress : w.host.progress = s.host.progress := by rw [host]
  refine ⟨_, reportProgress (w.setInputs (ackInputs n ack rest)), startSending_of_lt valid inRom, ?_, ?_,
    fun k v started => ?_⟩
  · exact ⟨(congrArg Image.valid rom).trans valid,
      (show i + 1 + n = s.rom.len / 256 by omega).trans (congrArg (·.len / 256) rom.symm),
      (congrArg HostSide.transportOpen host).trans transport, params ▸ isAck, rfl⟩
  · exact ⟨rom, reverseBits, releases, congrArg (· + 1) progress, tr.line⟩
  · have written := run_of_written (s := enterSending i s) (k := k + 1) (.inr rfl) inputs sent
    have reported := (runReplyEvent_of_ack (s := w.setInputs (ackInputs n ack rest)) (congrArg HostSide.phase host)
      (params ▸ isAck)).trans started
    exact written.trans (run_of_event tr.inputs reported)

theorem Completed.cons {w t : State} (packet : Advanced i s w) (h : Completed (i + 1) n rest w t) :
    Completed i (n + 1) rest s t := by
  obtain ⟨phase, transport, releases, progress, inputs, line⟩ := h
  refine ⟨phase, transport, by rw [releases, packet.releases], by rw [progress, packet.progress]; omega, inputs, ?_⟩
  rw [line, packet.line, packet.rom, packet.reverseBits, List.range'_succ, List.map_cons, List.flatten_cons,
    List.append_assoc]

end

/-- A session whose packets are all acknowledged sends all that are left. -/
theorem AckSchedule.run {ack : List Byte} {rest : List Input} (n : Nat) :
    ∀ {i : Nat} {s : State}, AckSchedule i n ack rest s → ∃ u t, startSending i s = .next u ∧
      Host.Core.run Sys2Proof.core (2 * n + 1) u = .next t ∧ Completed i n rest s t := by
  induction n with
  | zero =>
    intro i s h
    obtain ⟨t, run, phase, transport, releases, progress, line, inputs⟩ := run_released
      (s := setPhase (.closing .success) s) rfl h.transport h.inputs
    exact ⟨_, t, startSending_end h.count.ge, run, phase, transport, releases, progress, inputs,
      line.trans (List.append_nil _).symm⟩
  | succ n ih =>
    intro i s h
    obtain ⟨u, w, built, hw, packet, steps⟩ := h.advance
    obtain ⟨v, t, started, run, completed⟩ := ih hw
    exact ⟨u, t, built, (steps _ v started).trans run, completed.cons packet⟩

/-- Settles O59: the transport is acquired, and the packets from index 0 on go out one by one. -/
theorem flashSendsTheWholeImage : Obligations.FlashSendsTheWholeImage := by
  intro s ack rest valid phase isAck inputs
  have schedule : AckSchedule 0 (s.rom.len / 256) ack rest
      (acquireTransport (s.setInputs (ackInputs (s.rom.len / 256) ack rest))) :=
    ⟨valid, Nat.zero_add _, rfl, isAck, rfl⟩
  obtain ⟨u, t, started, run, completed⟩ := schedule.run
  have opened := (runOpened_of_opening (s := s.setInputs (ackInputs (s.rom.len / 256) ack rest)) phase).trans started
  refine ⟨t, (run_of_event inputs opened).trans run, completed.phase, completed.transport, completed.releases,
    completed.progress, completed.inputs, _, by simp, fun i inRom => ?_, completed.line⟩
  exact ⟨imagePacket s.rom i s.host.reverseBits, by simp [inRom, acquireTransport],
    buildPacket_imagePacket _ valid inRom⟩

end Sys2Proof.Machine
end

section
/-!
The answer to a command word (60_exceptions.md R243 to R248): there is one, it does not depend on the response before
it, and an error writes no state but PKTV.
-/

namespace Sys2Proof.Machine

/-! What a command answers, whatever the port held. -/

/-- A word that decodes runs its instruction in every state (30_encoding.md R98). -/
theorem runCode_of_decodeWord {w : CommandWord} {i : Instr} (decoded : decodeWord w = .ok i) (s : State) :
    runCode (.word w) s = exec i s := by
  simp only [runCode, decode, decoded]

/-- A word that does not decode is illegal in every state (30_encoding.md R94). -/
theorem runCode_of_decodeWord_error {w : CommandWord} {e : DecodeError} (decoded : decodeWord w = .error e)
    (s : State) : runCode (.word w) s = .next (s.setRsp (some (.error .illegalCommand))) := by
  simp only [runCode, decode, decoded, runUndecoded, raise]

/-- SUM answers over every buffer, and reads of the state nothing but the buffer (42_checksum.md R152). -/
theorem runSum_answer (buffer : Image) (offset count : Int) (s : State) :
    ∃ (u : State) (r : Response), ∀ q, runSum buffer offset count (s.setRsp q) = u.setRsp (some r) := by
  cases outcome : checksum buffer offset count with
  | ok v => exact ⟨s.setAcc v, _, fun q => runSum_of_ok outcome (s.setRsp q)⟩
  | error f => exact ⟨s, _, fun q => runSum_of_error outcome (s.setRsp q)⟩

/-- PKT on a valid image answers whether its checks pass or not (43_packet_formatter.md R172, R185). -/
theorem runPkt_answer {s : State} (valid : s.rom.valid = true) (offset : Int) (rev : Bool) :
    ∃ (u : State) (r : Response), ∀ q, runPkt offset rev (s.setRsp q) = .next (u.setRsp (some r)) := by
  cases outcome : buildPacket s.rom offset rev with
  | ok p => exact ⟨storePacket p offset rev s, _, fun q => runPkt_of_ok (s := s.setRsp q) valid outcome⟩
  | error f => exact ⟨clearPacketValid s, _, fun q => runPkt_of_error (s := s.setRsp q) valid outcome⟩

/-- A command ends in a response, in a state that is the same whatever the port held before; the one stop is that of
PKT on a broken image (70_reset_and_hazards.md R275). -/
theorem exec_answer {i : Instr} (command : ∀ a p c, i ≠ .packet5A a p c) (s : State) :
    (∃ (u : State) (r : Response), ∀ q, exec i (s.setRsp q) = .next (u.setRsp (some r))) ∨
      (s.rom.valid = false ∧ ∀ q, exec i (s.setRsp q) = .refused .romPremise) := by
  cases i with
  | enc offset =>
    obtain ⟨r, answers⟩ := encIsPure (zext offset)
    exact .inl ⟨s, r, fun q => congrArg Host.Outcome.next (answers (s.setRsp q))⟩
  | rev b => exact .inl ⟨s, _, fun _ => rfl⟩
  | sum offset count =>
    cases pktv : s.pktv with
    | true =>
      obtain ⟨u, r, answers⟩ := runSum_answer (pktImage s) (zext offset) (zext count) s
      exact .inl ⟨u, r, fun q => (exec_sum_of_pktv (s := s.setRsp q) pktv offset count).trans
        (congrArg Host.Outcome.next (answers q))⟩
    | false => exact .inl ⟨s, _, fun q => exec_sum_of_not_pktv (s := s.setRsp q) pktv offset count⟩
  | pkt offset rev =>
    cases valid : s.rom.valid with
    | true => exact .inl (runPkt_answer valid (zext offset) rev)
    | false => exact .inr ⟨rfl, fun q => if_neg (ne_true_of_eq_false valid)⟩
  | packet5A a p c => exact absurd rfl (command a p c)

/-- Every command word is answered as its instruction is, or as illegal (30_encoding.md R98). -/
theorem runCode_word_answer (w : CommandWord) (s : State) :
    (∃ (u : State) (r : Response), ∀ q, runCode (.word w) (s.setRsp q) = .next (u.setRsp (some r))) ∨
      (s.rom.valid = false ∧ ∀ q, runCode (.word w) (s.setRsp q) = .refused .romPremise) := by
  cases decoded : decodeWord w with
  | ok i =>
    simp only [runCode_of_decodeWord decoded]
    exact exec_answer (fun a p c packet => decodeWord_ne_packet w a p c (packet ▸ decoded)) s
  | error e => exact .inl ⟨s, _, fun q => runCode_of_decodeWord_error decoded (s.setRsp q)⟩

/-- Settles O33: the one stop of a command word is on a broken image. -/
theorem everyCommandWordIsAnswered : Obligations.EveryCommandWordIsAnswered := by
  intro w s valid
  obtain ⟨u, r, answers⟩ | ⟨broken, -⟩ := runCode_word_answer w s
  · exact ⟨u.setRsp (some r), r, answers s.rsp, rfl⟩
  · exact absurd valid (ne_true_of_eq_false broken)

/-- Settles O36: the answer, or the stop, is the one that the word has with the state's own response at the port. -/
theorem errorsAreNotSticky : Obligations.ErrorsAreNotSticky := by
  intro w s r
  obtain ⟨u, a, answers⟩ | ⟨-, stops⟩ := runCode_word_answer w s
  · exact (answers r).trans (answers s.rsp).symm
  · exact (stops r).trans (stops s.rsp).symm

/-! What an error writes. -/

/-- A command that fails writes its response, and PKT clears PKTV as well (60_exceptions.md R246). -/
theorem exec_error {i : Instr} {s t : State} {f : Failure} (command : ∀ a p c, i ≠ .packet5A a p c)
    (h : exec i s = .next t) (failed : t.rsp = some (.error f)) :
    (t = s.setRsp (some (.error f)) ∧ ∀ o r, i ≠ .pkt o r) ∨
      (t = (s.setPktv false).setRsp (some (.error f)) ∧ ∃ o r, i = .pkt o r) := by
  obtain ⟨o, rfl, r, rfl⟩ | ⟨b, rfl, r, rfl⟩ | ⟨o, c, rfl, ⟨f, rfl⟩ | ⟨v, rfl⟩⟩ |
    ⟨o, r, rfl, -, ⟨f, -, rfl⟩ | ⟨p, -, rfl⟩⟩ | ⟨a, p, c, rfl, -⟩ := exec_cases h
  · exact .inl ⟨congrArg s.setRsp failed, by simp⟩
  · exact .inl ⟨congrArg s.setRsp failed, by simp⟩
  · exact .inl ⟨congrArg s.setRsp failed, by simp⟩
  · cases failed
  · exact .inr ⟨congrArg (s.setPktv false).setRsp failed, o, r, rfl⟩
  · cases failed
  · exact absurd rfl (command a p c)

/-- Settles O34: an illegal word is no PKT and writes its response alone; a word that decodes fails as its
instruction. -/
theorem errorsWriteNoState : Obligations.ErrorsWriteNoState := by
  intro w s t f h failed
  cases decoded : decodeWord w with
  | ok i =>
    rw [runCode_of_decodeWord decoded] at h
    have command : ∀ a p c, i ≠ .packet5A a p c := fun a p c packet =>
      decodeWord_ne_packet w a p c (packet ▸ decoded)
    simpa using exec_error command h failed
  | error e =>
    rw [runCode_of_decodeWord_error decoded] at h
    cases h
    exact .inl ⟨congrArg s.setRsp failed, by simp⟩

/-- The low 24 bits of a packed response are its result (30_encoding.md R91). -/
theorem Response.extractLsb'_pack (r : Response) : r.pack.extractLsb' 0 24 = r.result :=
  BitVec.extractLsb'_append_eq_right

/-- Settles O35: the result field is that of an error response, and PKTV is what a failed PKT wrote. -/
theorem errorsCarryNoResult : Obligations.ErrorsCarryNoResult := by
  intro w s t f h failed
  refine ⟨f.status_ne_ok, Response.extractLsb'_pack (.error f), fun ⟨o, r, decoded⟩ => ?_⟩
  obtain ⟨-, noPkt⟩ | ⟨rfl, -⟩ := errorsWriteNoState w s t f h failed
  · exact absurd decoded (noPkt o r)
  · rfl

end Sys2Proof.Machine
end

section
/-!
Reset, and the hazards of the ROM image (70_reset_and_hazards.md R270, R271, R275, R276).
-/

namespace Sys2Proof.Machine

/-- Settles O2: the answer is `resetBlock`, whose fields are read off; the read-outs follow from PKTV = 0. -/
theorem resetInputReachesResetState : Obligations.ResetInputReachesResetState := by
  intro s rest next
  exact ⟨resetBlock (s.setInputs rest), step_of_inputs next, rfl, runReadOut_unreadable rfl, rfl, rfl, rfl, rfl,
    fun b i hi => ⟨reverse b, memRead_lut b _, getLsbD_reverse b i hi⟩, rfl, rfl, rfl, rfl⟩

/-- PKT on a broken image has no meaning, whatever its operands (R275); `runPkt_of_ok` and `runPkt_of_error` are its
outcomes on a valid one. -/
theorem runPkt_of_broken {s : State} (broken : s.rom.valid = false) (offset : Int) (rev : Bool) :
    runPkt offset rev s = .refused .romPremise := by
  simp [runPkt, broken]

/-- Settles O18. -/
theorem pktStopsOnABrokenImage : Obligations.PktStopsOnABrokenImage :=
  fun offset rev _ broken => runPkt_of_broken broken (zext offset) rev

/-! What each input does to the ROM image (R276). -/

/-- A move of the block during a session leaves the ROM image alone. -/
theorem BlockMove.rom_of_active {s t : State} (h : BlockMove s t) (active : s.host.phase.active = true) :
    t.rom = s.rom := by
  cases h with
  | same _ _ _ _ rom => exact rom
  | failed _ _ _ _ rom => exact rom
  | built _ _ _ _ _ _ _ _ _ rom => exact rom
  | reset _ _ _ _ rom => exact rom
  | loaded _ idle _ _ _ _ _ => exact absurd active (ne_true_of_eq_false idle)

theorem Phase.active_eq_false_iff {p : Phase} : p.active = false ↔ p = .idle ∨ ∃ r, p = .closed r := by
  cases p <;> simp [Phase.active]

/-- Outside a session no event changes anything: none is waited for, and there is nothing to abort
(45_host_environment.md R208, R220; log 18). -/
theorem runEvent_of_idle {s : State} (idle : s.host.phase.active = false) (e : HostEvent) :
    runEvent e s = .next s := by
  obtain phase | ⟨r, phase⟩ := Phase.active_eq_false_iff.1 idle <;> cases e with
  | ioError | cancel => simp [runEvent, runIoError, runCancel, phase, Phase.abort, setPhase_self phase]
  | _ => simp [runEvent, runOpened, runOpenFailed, runWritten, runReplyEvent, runTimeout, runReleased, phase]

theorem runEvent_keeps_rom {e : HostEvent} {s t : State} (h : runEvent e s = .next t) : t.rom = s.rom := by
  cases active : s.host.phase.active with
  | true => exact (runEvent_move h).rom_of_active active
  | false =>
    rw [runEvent_of_idle active] at h
    cases h
    rfl

theorem runReadOut_keeps_rom {k : Nat} {s t : State} (h : runReadOut k s = .next t) : t.rom = s.rom := by
  unfold runReadOut at h
  split_ifs at h
  split at h <;> cases h
  rfl

theorem runFlash_keeps_rom {rev : Bool} {ps : HostParams} {s t : State} (h : runFlash rev ps s = .next t) :
    t.rom = s.rom := by
  unfold runFlash at h
  split_ifs at h
  cases h
  rfl

/-- A LOAD that is answered comes outside a session, and its image is the file's if the file is good
(45_host_environment.md R201 to R203). -/
theorem runLoad_rom {file : List Byte} {s t : State} (h : runLoad file s = .next t) :
    t.rom = s.rom ∨ (s.host.phase.active = false ∧ loadImage file = .ok t.rom) := by
  cases active : s.host.phase.active with
  | true =>
    rw [runLoad_of_active active] at h
    cases h
  | false =>
    cases image : loadImage file with
    | ok im =>
      rw [runLoad_of_ok active image] at h
      cases h
      exact .inr ⟨rfl, rfl⟩
    | error e =>
      rw [runLoad_of_error active image] at h
      cases h
      exact .inl rfl

/-- No input but a LOAD of a good file outside a session changes the ROM image. -/
theorem handleInput_rom {x : Input} {s t : State} (h : handleInput x s = .next t) :
    t.rom = s.rom ∨ ∃ file, x = .load file ∧ s.host.phase.active = false ∧ loadImage file = .ok t.rom := by
  cases x with
  | code c => exact .inl (runPortCode_keeps h).1
  | reset =>
    cases h
    exact .inl rfl
  | readOut k => exact .inl (runReadOut_keeps_rom h)
  | load file => exact (runLoad_rom h).imp_right fun image => ⟨file, rfl, image⟩
  | flash rev ps => exact .inl (runFlash_keeps_rom h)
  | event e => exact .inl (runEvent_keeps_rom h)

/-- Settles O40: a step takes at most one input, and `handleInput_rom` says which one changes the image. -/
theorem romImageIsConstant : Obligations.RomImageIsConstant := by
  intro s t h
  cases next : s.inputs with
  | nil =>
    simp only [step, nextInput, next] at h
    cases h
    exact .inl rfl
  | cons x rest =>
    rw [step_of_inputs next] at h
    obtain same | ⟨file, rfl, idle, image⟩ := handleInput_rom h
    · exact .inl same
    · exact .inr ⟨file, rest, rfl, idle, image⟩

end Sys2Proof.Machine
end
